-- ==== Sys2Proof/Word.lean ====
section
/-! DEFINITION. The bit-vector types of the engine (spec 00_scope.md R7, R8: every value is an
unsigned integer of a fixed width, bit 0 the least significant). -/

namespace Sys2Proof

/-- One byte of a ROM image (20_memory.md R44). -/
abbrev Byte := BitVec 8

/-- A row word, format `ROW48`: `ROW_W` = 48 bits (30_encoding.md R60). -/
abbrev RowWord := BitVec 48

/-- A sequencer control word, format `CTL5` (30_encoding.md R66). -/
abbrev CtlWord := BitVec 5

/-- A state identifier: `STATE_W` = 4 bits (30_encoding.md R61). -/
abbrev StateId := BitVec 4

/-- The input code: `CODE_W` = 3 bits (30_encoding.md R65). -/
abbrev Code := BitVec 3

end Sys2Proof
end

