-- ==== Sys2Proof/Config.lean ====
section
/-! DEFINITION. What a build of the engine fixes (00_scope.md R7), and the free values: what the
spec leaves without a value. A free value is a constant with no body, so nothing can be proved about it. -/

namespace Sys2Proof.Config

/-- `INIT_STATE`, the state after reset: GoWest, index 0 (R7, R32). -/
def initState : StateId := 0

/-- The largest legal `N_STATES` (R7: "legal range 1 to 9"). -/
def maxStates : Nat := 9

/-- The least legal `IN_W` (R7: `OPEN`, default 8, `>= 3`). -/
def minInW : Nat := 3

/-- The six `OPEN` transition entries of the reference table (44_state_table.md R140). The defaults
are the spec's: WaitSouth (3) for `GS5`..`GS7`, GoPed (4) for `GP5`..`GP7`. -/
structure OpenEntries where
  gs5 : StateId := 3
  gs6 : StateId := 3
  gs7 : StateId := 3
  gp5 : StateId := 4
  gp6 : StateId := 4
  gp7 : StateId := 4
  deriving DecidableEq, Repr

/-- FREE VALUE: the row word a read at a row index outside the table returns (20_memory.md R42:
"any 48-bit value"). The first argument is the number of clock edges so far, so that two such reads at
different edges need not agree. notes/assumptions/5. -/
opaque unmappedRow : Nat → StateId → RowWord

/-- FREE VALUE: the level of `rst` before the `n`-th clock edge, where the schedule of inputs says
nothing (R11: the environment supplies `tick`, `in_port` and `rst` as free inputs). notes/assumptions/2. -/
opaque freeRst : Nat → Bool

/-- FREE VALUE: the level of `tick`, as `freeRst`. -/
opaque freeTick : Nat → Bool

/-- FREE VALUE: the levels on `in_port`, as `freeRst`. -/
opaque freeInPort : Nat → Nat

end Sys2Proof.Config
end

