-- ==== Sys2Proof/Syntax.lean ====
section
/-! DEFINITION. The instructions of the engine: one constructor for each of the 21 rows of
opcode_table.json (30_encoding.md R72: ten row words, six sequenced operations, five combinational operations). -/

namespace Sys2Proof

/-- The eight successor fields `next[0]` .. `next[7]` of a row (30_encoding.md R60). -/
structure Successors where
  n0 : StateId
  n1 : StateId
  n2 : StateId
  n3 : StateId
  n4 : StateId
  n5 : StateId
  n6 : StateId
  n7 : StateId
  deriving DecidableEq, Repr

/-- The four attributes of a state, as the fields of its row word (30_encoding.md R60). -/
structure Row where
  main : BitVec 6
  ped  : BitVec 2
  hold : BitVec 8
  next : Successors
  deriving DecidableEq, Repr

/-- The instructions. -/
inductive Instr where
  /-- ROW: the generic row word, any 48 bits (R60). -/
  | row (r : Row)
  /-- GoWest: row 0 of the reference table (R131). -/
  | goWest
  /-- WaitWest: row 1 (R132). -/
  | waitWest
  /-- GoSouth: row 2, with its three `OPEN` entries `GS5`, `GS6`, `GS7` as operands (R133, R140). -/
  | goSouth (gs5 gs6 gs7 : StateId)
  /-- WaitSouth: row 3 (R134). -/
  | waitSouth
  /-- GoPed: row 4, with its three `OPEN` entries `GP5`, `GP6`, `GP7` as operands (R135, R140). -/
  | goPed (gp5 gp6 gp7 : StateId)
  /-- PedFlashOff1: row 5 (R136). -/
  | pedFlashOff1
  /-- PedFlashOn1: row 6 (R137). -/
  | pedFlashOn1
  /-- PedFlashOff2: row 7 (R138). -/
  | pedFlashOff2
  /-- PedFlashOn2: row 8 (R139). -/
  | pedFlashOn2
  /-- RESET (43_sequencer.md R112). -/
  | reset
  /-- REFUSE (45_table_validation.md R153). -/
  | refuse
  /-- ADVANCE_Z: the hold is zero (42_next_state_decoder.md R103). -/
  | advanceZ
  /-- ADVANCE_T: the last tick of the hold (R103). -/
  | advanceT
  /-- COUNT (41_hold_timer.md R91). -/
  | count
  /-- IDLE (41_hold_timer.md R94). -/
  | idle
  /-- EMIT_MAIN (40_output_mux.md R80). -/
  | emitMain
  /-- EMIT_PED (40_output_mux.md R81). -/
  | emitPed
  /-- SAMPLE (42_next_state_decoder.md R100). -/
  | sample
  /-- NEXT (42_next_state_decoder.md R102). -/
  | next
  /-- VALIDATE (45_table_validation.md R150). -/
  | validate
  deriving DecidableEq, Repr

/-- The three formats of opcode_table.json (30_encoding.md R68, R72). -/
inductive Format where
  | row48
  | ctl5
  | comb
  deriving DecidableEq, Repr

/-- The format of each instruction. -/
def Instr.format : Instr → Format
  | .row _ => .row48
  | .goWest => .row48
  | .waitWest => .row48
  | .goSouth _ _ _ => .row48
  | .waitSouth => .row48
  | .goPed _ _ _ => .row48
  | .pedFlashOff1 => .row48
  | .pedFlashOn1 => .row48
  | .pedFlashOff2 => .row48
  | .pedFlashOn2 => .row48
  | .reset => .ctl5
  | .refuse => .ctl5
  | .advanceZ => .ctl5
  | .advanceT => .ctl5
  | .count => .ctl5
  | .idle => .ctl5
  | .emitMain => .comb
  | .emitPed => .comb
  | .sample => .comb
  | .next => .comb
  | .validate => .comb

end Sys2Proof
end

