-- ==== Sys2Proof/Machine/RefRows.lean ====
section
/-! DEFINITION. The nine rows of the reference table `T_ref` as fields (44_state_table.md R130 to
R139), the reference table for every choice of its `OPEN` entries (R140), and which row a set of fields names. -/

namespace Sys2Proof.Machine

/-- Eight equal successors: an input-insensitive row (42_next_state_decoder.md R105). -/
def Successors.all (n : StateId) : Successors := ⟨n, n, n, n, n, n, n, n⟩

/-- Row 0, GoWest (R131). -/
def goWestRow : Row := ⟨0b001100, 0b01, 5, ⟨0, 0, 1, 1, 1, 1, 1, 1⟩⟩

/-- Row 1, WaitWest (R132). -/
def waitWestRow : Row := ⟨0b010100, 0b01, 5, Successors.all 2⟩

/-- Row 2, GoSouth (R133). -/
def goSouthRow (gs5 gs6 gs7 : StateId) : Row := ⟨0b100001, 0b01, 5, ⟨2, 3, 2, 3, 3, gs5, gs6, gs7⟩⟩

/-- Row 3, WaitSouth (R134). -/
def waitSouthRow : Row := ⟨0b100010, 0b01, 5, Successors.all 4⟩

/-- Row 4, GoPed (R135). -/
def goPedRow (gp5 gp6 gp7 : StateId) : Row := ⟨0b100100, 0b10, 5, ⟨4, 5, 5, 5, 4, gp5, gp6, gp7⟩⟩

/-- Row 5, PedFlashOff1 (R136). -/
def pedFlashOff1Row : Row := ⟨0b100100, 0b00, 5, Successors.all 6⟩

/-- Row 6, PedFlashOn1 (R137). -/
def pedFlashOn1Row : Row := ⟨0b100100, 0b01, 5, Successors.all 7⟩

/-- Row 7, PedFlashOff2 (R138). -/
def pedFlashOff2Row : Row := ⟨0b100100, 0b00, 5, Successors.all 8⟩

/-- Row 8, PedFlashOn2 (R139). -/
def pedFlashOn2Row : Row := ⟨0b100100, 0b01, 5, Successors.all 0⟩

/-- The reference table `T_ref`, row 0 first (R130), for a choice of the `OPEN` entries. -/
def refRows (o : Config.OpenEntries) : List Row :=
  [goWestRow, waitWestRow, goSouthRow o.gs5 o.gs6 o.gs7, waitSouthRow, goPedRow o.gp5 o.gp6 o.gp7,
   pedFlashOff1Row, pedFlashOn1Row, pedFlashOff2Row, pedFlashOn2Row]

/-- The legal values of `GS5`, `GS6`, `GS7`: GoSouth or WaitSouth (R140). -/
def gsLegal (n : StateId) : Bool := n == 2 || n == 3

/-- The legal values of `GP5`, `GP6`, `GP7`: GoPed or PedFlashOff1 (R140). -/
def gpLegal (n : StateId) : Bool := n == 4 || n == 5

/-- A legal choice of all six `OPEN` entries (R140). -/
def openLegal (o : Config.OpenEntries) : Bool :=
  gsLegal o.gs5 && gsLegal o.gs6 && gsLegal o.gs7 && gpLegal o.gp5 && gpLegal o.gp6 && gpLegal o.gp7

/-- The instruction of the reference table that has these fields, if one has (R131 to R140). -/
def namedRow (r : Row) : Option Instr :=
  if r = goWestRow then some .goWest
  else if r = waitWestRow then some .waitWest
  else if r = goSouthRow r.next.n5 r.next.n6 r.next.n7 ∧
      (gsLegal r.next.n5 && gsLegal r.next.n6 && gsLegal r.next.n7) = true then
    some (.goSouth r.next.n5 r.next.n6 r.next.n7)
  else if r = waitSouthRow then some .waitSouth
  else if r = goPedRow r.next.n5 r.next.n6 r.next.n7 ∧
      (gpLegal r.next.n5 && gpLegal r.next.n6 && gpLegal r.next.n7) = true then
    some (.goPed r.next.n5 r.next.n6 r.next.n7)
  else if r = pedFlashOff1Row then some .pedFlashOff1
  else if r = pedFlashOn1Row then some .pedFlashOn1
  else if r = pedFlashOff2Row then some .pedFlashOff2
  else if r = pedFlashOn2Row then some .pedFlashOn2
  else none

/-- The fields of an instruction of format `ROW48`. -/
def rowOf : Instr → Option Row
  | .row r => some r
  | .goWest => some goWestRow
  | .waitWest => some waitWestRow
  | .goSouth a b c => some (goSouthRow a b c)
  | .waitSouth => some waitSouthRow
  | .goPed a b c => some (goPedRow a b c)
  | .pedFlashOff1 => some pedFlashOff1Row
  | .pedFlashOn1 => some pedFlashOn1Row
  | .pedFlashOff2 => some pedFlashOff2Row
  | .pedFlashOn2 => some pedFlashOn2Row
  | .reset => none
  | .refuse => none
  | .advanceZ => none
  | .advanceT => none
  | .count => none
  | .idle => none
  | .emitMain => none
  | .emitPed => none
  | .sample => none
  | .next => none
  | .validate => none

end Sys2Proof.Machine
end

