-- ==== Sys2Proof/WellFormed.lean ====
section
/-! DEFINITION. Which terms of `Instr` are instructions: each `OPEN` entry at a legal value
(44_state_table.md R140), and a row that is one of the reference table's written by its own name, so that every
row word is written in one way (notes/assumptions/16). -/

namespace Sys2Proof

open Sys2Proof.Machine

/-- Well-formedness of an instruction. -/
def Instr.wf : Instr → Bool
  | .row r => (namedRow r).isNone
  | .goSouth a b c => gsLegal a && gsLegal b && gsLegal c
  | .goPed a b c => gpLegal a && gpLegal b && gpLegal c
  | .goWest => true
  | .waitWest => true
  | .waitSouth => true
  | .pedFlashOff1 => true
  | .pedFlashOn1 => true
  | .pedFlashOff2 => true
  | .pedFlashOn2 => true
  | .reset => true
  | .refuse => true
  | .advanceZ => true
  | .advanceT => true
  | .count => true
  | .idle => true
  | .emitMain => true
  | .emitPed => true
  | .sample => true
  | .next => true
  | .validate => true

end Sys2Proof
end

