-- ==== Sys2Proof/Decode.lean ====
section
/-! DEFINITION. Encodings (30_encoding.md): the fields of a row word, the decoders of both formats,
the decoder of an instruction's bytes, and the encoders, written from the same tables. -/

namespace Sys2Proof

open Sys2Proof.Machine

/-- `next[i] = word[19 + 4i : 16 + 4i]` (R60, R69). -/
def nextField (w : RowWord) (i : Nat) : StateId := w.extractLsb' (16 + 4 * i) 4

/-- `main`, bits `[5:0]` (R60). -/
def mainField (w : RowWord) : BitVec 6 := w.extractLsb' 0 6

/-- `ped`, bits `[7:6]` (R60). -/
def pedField (w : RowWord) : BitVec 2 := w.extractLsb' 6 2

/-- `hold`, bits `[15:8]` (R60). -/
def holdField (w : RowWord) : BitVec 8 := w.extractLsb' 8 8

/-- The fields of a row word (R60). -/
def rowFields (w : RowWord) : Row :=
  ⟨mainField w, pedField w, holdField w,
   ⟨nextField w 0, nextField w 1, nextField w 2, nextField w 3,
    nextField w 4, nextField w 5, nextField w 6, nextField w 7⟩⟩

/-- The row word of a set of fields: `hhhhgggg ffffeeee ddddcccc bbbbaaaa tttttttt ppmmmmmm` (R60). -/
def rowWord (r : Row) : RowWord :=
  r.next.n7 ++ r.next.n6 ++ r.next.n5 ++ r.next.n4 ++ r.next.n3 ++ r.next.n2 ++ r.next.n1 ++ r.next.n0 ++
    r.hold ++ r.ped ++ r.main

/-- The successor a row lists for a code (R65, R69). -/
def successor (n : Successors) (c : Code) : StateId :=
  match c.toNat with
  | 0 => n.n0
  | 1 => n.n1
  | 2 => n.n2
  | 3 => n.n3
  | 4 => n.n4
  | 5 => n.n5
  | 6 => n.n6
  | _ => n.n7

/-- The decoder of row words. Every 48-bit word is a row (R60, R68); the words of the reference table
are read as their own instructions (R131 to R140). -/
def decodeRow (w : RowWord) : Instr := (namedRow (rowFields w)).getD (.row (rowFields w))

/-- A control word matches a line of the decode table (R66). -/
def ctlMatches (mask value c : CtlWord) : Bool := c &&& mask == value

/-- The decoder of control words: the mask and match columns of R66. Its last line, IDLE, is reached by
the words of IDLE alone (test_ctl_table, after 95_test_vectors.md E4). -/
def decodeCtl (c : CtlWord) : Instr :=
  if ctlMatches 0x10 0x10 c then .reset
  else if ctlMatches 0x18 0x00 c then .refuse
  else if ctlMatches 0x1C 0x0C c then .advanceZ
  else if ctlMatches 0x1F 0x0B c then .advanceT
  else if ctlMatches 0x1F 0x09 c then .count
  else .idle

/-- Why bytes are no instruction. -/
inductive DecodeError where
  /-- Nothing to decode. The combinational operations have a zero-width encoding: they are active at
  every instant and selected by no bits (R72), so no bits name one of them. -/
  | selectedByNoBits
  /-- A control word has five bits (R68); a byte with a higher bit set is none. -/
  | ctlHighBits
  /-- Neither the one byte of a control word nor the six bytes of a row word (R68). -/
  | badLength
  deriving DecidableEq, Repr

/-- The decoder of an instruction's bytes, total. Row words are laid out least significant byte
first (20_memory.md R44); a control word is the low five bits of one byte (notes/assumptions/20). -/
def decode : List Byte → Except DecodeError Instr
  | [] => .error .selectedByNoBits
  | [b] => if b.toNat < 32 then .ok (decodeCtl (b.setWidth 5)) else .error .ctlHighBits
  | [b0, b1, b2, b3, b4, b5] => .ok (decodeRow (b5 ++ b4 ++ b3 ++ b2 ++ b1 ++ b0))
  | _ => .error .badLength

/-- The bytes of a row word, least significant first (20_memory.md R44). -/
def rowBytes (w : RowWord) : List Byte :=
  [w.extractLsb' 0 8, w.extractLsb' 8 8, w.extractLsb' 16 8,
   w.extractLsb' 24 8, w.extractLsb' 32 8, w.extractLsb' 40 8]

/-- The control word an operation is written as: the match column of R66 (its free bits 0). -/
def ctlOf : Instr → Option CtlWord
  | .reset => some 0x10
  | .refuse => some 0x00
  | .advanceZ => some 0x0C
  | .advanceT => some 0x0B
  | .count => some 0x09
  | .idle => some 0x08
  | .row _ => none
  | .goWest => none
  | .waitWest => none
  | .goSouth _ _ _ => none
  | .waitSouth => none
  | .goPed _ _ _ => none
  | .pedFlashOff1 => none
  | .pedFlashOn1 => none
  | .pedFlashOff2 => none
  | .pedFlashOn2 => none
  | .emitMain => none
  | .emitPed => none
  | .sample => none
  | .next => none
  | .validate => none

/-- The encoder: the bytes of an instruction. The combinational operations have none (R72). -/
def encode (i : Instr) : List Byte :=
  match rowOf i with
  | some r => rowBytes (rowWord r)
  | none =>
    match ctlOf i with
    | some c => [c.setWidth 8]
    | none => []

/-- How many bytes an instruction of the table with `nbits` bits has: none for the zero-width
operations, one for a control word, six for a row word. -/
def tableBytes (nbits : Nat) : Option Nat :=
  if nbits = 0 then some 0
  else if nbits ≤ 8 then some 1
  else if nbits ≤ 48 then some 6
  else none

/-- The `k` low bytes of a number, least significant first. -/
def bytesOf (w : Nat) : Nat → List Byte
  | 0 => []
  | k + 1 => BitVec.ofNat 8 w :: bytesOf (w / 256) k

/-- The instruction the decoder reads from a word of opcode_table.json. -/
def decodeTableWord (nbits w : Nat) : Option Instr :=
  match tableBytes nbits with
  | some k => (decode (bytesOf (w % 2 ^ nbits) k)).toOption
  | none => none

end Sys2Proof
end

