-- ==== Sys2Proof/Machine/Memory.lean ====
section
/-! DEFINITION. The table ROM's contents: the bytes of its ROM image (20_memory.md R44), as a list of
cells in one canonical form. The engine reads whole rows only (R41); a byte is never addressed by it. -/

namespace Sys2Proof.Machine

/-- The contents of the ROM: byte addresses of the image, strictly rising, none holding an erased byte. -/
abbrev Memory := List Host.Cell

/-- What a byte of the image that is not listed reads as: an erased ROM byte, whose nibbles are `0xF`,
"no entry" (92_eei_decisions.md D22; notes/assumptions/4). -/
def Memory.erased : Byte := 0xFF

/-- The byte at an address. -/
def Memory.read : Memory → Nat → Byte
  | [], _ => Memory.erased
  | (k, b) :: m, a => if k = a then b else Memory.read m a

/-- Set the byte at an address, in canonical form. Used to build a table, never by a step (R43). -/
def Memory.write : Memory → Nat → Byte → Memory
  | [], a, b => if b = Memory.erased then [] else [(a, b)]
  | (k, c) :: m, a, b =>
    if a < k then
      if b = Memory.erased then (k, c) :: m else (a, b) :: (k, c) :: m
    else if a = k then
      if b = Memory.erased then m else (a, b) :: m
    else (k, c) :: Memory.write m a b

/-- Canonical form of cells at addresses from `lo` on: strictly rising, no erased byte listed. -/
def Memory.wfFrom : Nat → Memory → Bool
  | _, [] => true
  | lo, (k, b) :: m => decide (lo ≤ k) && b != Memory.erased && Memory.wfFrom (k + 1) m

/-- The canonical form. -/
def Memory.wf (m : Memory) : Bool := Memory.wfFrom 0 m

/-- No cell at or above an address. -/
def Memory.below (top : Nat) (m : Memory) : Bool := m.all fun c => decide (c.1 < top)

/-- The row word stored at a row index: six bytes, least significant first (R44), read at once (R41). -/
def Memory.readRow (m : Memory) (k : Nat) : RowWord :=
  m.read (6 * k + 5) ++ m.read (6 * k + 4) ++ m.read (6 * k + 3) ++
    m.read (6 * k + 2) ++ m.read (6 * k + 1) ++ m.read (6 * k)

/-- Store bytes from an address on. -/
def Memory.writeBytes (m : Memory) (a : Nat) : List Byte → Memory
  | [] => m
  | b :: bs => Memory.writeBytes (m.write a b) (a + 1) bs

/-- Store a row word at a row index, in the byte order of R44. -/
def Memory.writeRow (m : Memory) (k : Nat) (w : RowWord) : Memory := m.writeBytes (6 * k) (rowBytes w)

/-- Store row words from a row index on. -/
def Memory.writeRows (m : Memory) (k : Nat) : List RowWord → Memory
  | [] => m
  | w :: ws => Memory.writeRows (m.writeRow k w) (k + 1) ws

/-- The ROM of a table: rows in index order, row 0 first (R44). -/
def Memory.ofRows (ws : List RowWord) : Memory := Memory.writeRows [] 0 ws

/-- The first `n` bytes of the ROM from an address on. -/
def Memory.bytesFrom (m : Memory) (a : Nat) : Nat → List Byte
  | 0 => []
  | n + 1 => m.read a :: Memory.bytesFrom m (a + 1) n

/-- The ROM image of a table of `n` rows: `6 * n` bytes (R44). -/
def Memory.image (m : Memory) (n : Nat) : List Byte := m.bytesFrom 0 (6 * n)

/-- The ROM a ROM image loads (R45: "writing the image of a table by rule R44 and reading it back by
the same rule"). -/
def Memory.ofImage (bs : List Byte) : Memory := Memory.writeBytes [] 0 bs

end Sys2Proof.Machine
end

