-- ==== Sys2Proof/Machine/Parts.lean ====
section
/-! DEFINITION. The parts of the machine's state: the two registers, the configuration, the input
pins and the combinational nodes. -/

namespace Sys2Proof.Machine

/-- The registers: all the mutable state the engine has (10_state.md R20, R22, R23). -/
structure Regs where
  /-- `cursor`, the program counter (R20). -/
  cursor  : StateId
  /-- `hold_cnt`, the ticks still to be waited in the current state (R22). -/
  holdCnt : BitVec 8
  deriving DecidableEq, Repr

/-- The constants of a build (10_state.md R32). Held in the state so that a claim ranges over all
builds; no step changes them (test and obligations; notes/assumptions/3). -/
structure Cfg where
  /-- The contents of the table ROM, `T` (R40, R41). -/
  rom     : Memory
  /-- `N_STATES`, the number of rows (R7, R32). -/
  nStates : Nat
  /-- `IN_W`, the width of the input port (R7, R25). -/
  inW     : Nat
  deriving DecidableEq, Repr

/-- The levels on the input pins at a clock edge (10_state.md R24 to R26; 43_sequencer.md R110). -/
structure Pins where
  /-- `rst`, active high, synchronous (R24). -/
  rst    : Bool
  /-- `tick`, the timer's strobe (R26). -/
  tick   : Bool
  /-- `in_port`, read as an unsigned number; only its low `IN_W` bits exist (R25; notes/assumptions/18). -/
  inPort : Nat
  deriving DecidableEq, Repr

/-- The values on the combinational nodes: the output ports (10_state.md R27 to R30) and the nodes the
five combinational operations drive (30_encoding.md R72). They are no registers: every clock edge settles them
anew, and no operation reads them back (notes/assumptions/7). -/
structure Nodes where
  /-- `main_out`, driven by EMIT_MAIN (R27, R80). -/
  mainOut  : BitVec 6
  /-- `ped_out`, driven by EMIT_PED (R28, R81). -/
  pedOut   : BitVec 2
  /-- `cfg_fault`, driven by VALIDATE (R29, R152). -/
  cfgFault : Bool
  /-- `cfg_cause`, driven by VALIDATE (R30, R152). -/
  cfgCause : BitVec 2
  /-- `table_ok`, driven by VALIDATE (R150). -/
  tableOk  : Bool
  /-- `code`, driven by SAMPLE (R33, R100). -/
  code     : Code
  /-- `nxt`, driven by NEXT (R33, R102). -/
  nxt      : StateId
  deriving DecidableEq, Repr

end Sys2Proof.Machine
end

