-- ==== Sys2Proof/Machine/Operands.lean ====
section
/-! DEFINITION. Where operands come from: the reads of the table and of the input port, and the
successor lookup (20_memory.md R41, R42, R46; 42_next_state_decoder.md R100, R102, R107); the build and the registers
of the reset state. -/

namespace Sys2Proof.Machine

/-- The row word of a row of the table. -/
def romRow (c : Cfg) (k : Nat) : RowWord := c.rom.readRow k

/-- `MemRead(TABLE, s)`: the row word of state `s` (R41); outside the table any value (R42), here the
free value of this edge. -/
def memReadTable (c : Cfg) (edge : Nat) (s : StateId) : RowWord :=
  if s.toNat < c.nStates then romRow c s.toNat else Config.unmappedRow edge s

/-- `MemRead(INPUT)`: the `IN_W` bits on `in_port` (R46). -/
def memReadInput (c : Cfg) (p : Pins) : BitVec c.inW := BitVec.ofNat c.inW p.inPort

/-- SAMPLE: `code = in_port[2:0]` (R65, R100). -/
def sampleCode (c : Cfg) (p : Pins) : Code := (memReadInput c p).setWidth 3

/-- NEXT: `nxt = T[cursor].next[code]` (R69, R102). -/
def lookup (c : Cfg) (edge : Nat) (cursor : StateId) (code : Code) : StateId :=
  nextField (memReadTable c edge cursor) code.toNat

/-- The input pins where the schedule is silent: free levels (R11; notes/assumptions/2). -/
def freePins (edge : Nat) : Pins :=
  ⟨Config.freeRst edge, Config.freeTick edge, Config.freeInPort edge⟩

/-- The configuration of a build with the reference table and a choice of its `OPEN` entries
(44_state_table.md R130, R140): nine rows, and a port of the default width 8 (00_scope.md R7). -/
def refCfg (o : Config.OpenEntries) : Cfg :=
  ⟨Memory.ofRows ((refRows o).map rowWord), 9, 8⟩

/-- The registers after an edge with `rst = 1`: `(INIT_STATE, T[INIT_STATE].hold)` (10_state.md R35;
70_reset_and_hazards.md R180). -/
def resetRegs (c : Cfg) (edge : Nat) : Regs :=
  ⟨Config.initState, holdField (memReadTable c edge Config.initState)⟩

end Sys2Proof.Machine
end

