-- ==== Sys2Proof/Machine/Flags.lean ====
section
/-! DEFINITION. Flags and conditions: the validation of the table and the status it gives
(45_table_validation.md R150 to R152; 60_exceptions.md R160, R161), the hold conditions (10_state.md R33), and the
control word (30_encoding.md R66). -/

namespace Sys2Proof.Machine

/-- `T[s].next[i]` of a row of the table (R150). -/
def entry (c : Cfg) (s i : Nat) : StateId := nextField (romRow c s) i

/-- `missing(s, i)`: the entry is `0xF`, no entry (R150). -/
def missing (c : Cfg) (s i : Nat) : Bool := entry c s i == 0xF

/-- `dangling(s, i)`: the entry points outside the table (R150). -/
def dangling (c : Cfg) (s i : Nat) : Bool :=
  decide (c.nStates ≤ (entry c s i).toNat) && entry c s i != 0xF

/-- Some entry of the table satisfies a condition on its row and code. -/
def anyEntry (c : Cfg) (p : Nat → Nat → Bool) : Bool :=
  (List.range c.nStates).any fun s => (List.range 8).any fun i => p s i

/-- `TableValid(T)` and so `table_ok`: every entry names a row of the table (R150). -/
def tableValid (c : Cfg) : Bool :=
  (List.range c.nStates).all fun s => (List.range 8).all fun i => decide ((entry c s i).toNat < c.nStates)

/-- `cfg_fault = not table_ok` (R29, R152). -/
def cfgFault (c : Cfg) : Bool := !tableValid c

/-- `cfg_cause`: bit 1 some entry is dangling, bit 0 some entry is missing (R30, R161). -/
def cfgCause (c : Cfg) : BitVec 2 :=
  BitVec.ofBool (anyEntry c (dangling c)) ++ BitVec.ofBool (anyEntry c (missing c))

/-- `hold_zero` (R33). -/
def holdZero (r : Regs) : Bool := r.holdCnt == 0

/-- `hold_one` (R33). -/
def holdOne (r : Regs) : Bool := r.holdCnt == 1

/-- `expire = hold_zero or (hold_one and tick)` (R33, R92). -/
def expire (r : Regs) (p : Pins) : Bool := holdZero r || (holdOne r && p.tick)

/-- The control word `{rst, table_ok, hold_zero, hold_one, tick}` (R66). -/
def ctlWord (c : Cfg) (r : Regs) (p : Pins) : CtlWord :=
  BitVec.ofBool p.rst ++ BitVec.ofBool (tableValid c) ++ BitVec.ofBool (holdZero r) ++
    BitVec.ofBool (holdOne r) ++ BitVec.ofBool p.tick

end Sys2Proof.Machine
end

