-- ==== Sys2Proof/Machine/Mux.lean ====
section
/-! DEFINITION. The combinational output mux (40_output_mux.md) and the settled value of every node. -/

namespace Sys2Proof.Machine

/-- EMIT_MAIN: `table_ok ? MemRead(TABLE, cursor)[5:0] : 0` (R80, R83). -/
def mainMux (c : Cfg) (edge : Nat) (cursor : StateId) : BitVec 6 :=
  if tableValid c then mainField (memReadTable c edge cursor) else 0

/-- EMIT_PED: `table_ok ? MemRead(TABLE, cursor)[7:6] : 0` (R81, R83). -/
def pedMux (c : Cfg) (edge : Nat) (cursor : StateId) : BitVec 2 :=
  if tableValid c then pedField (memReadTable c edge cursor) else 0

/-- The settled nodes: what the five combinational operations give, "active at every instant" (R72). -/
def nodesOf (c : Cfg) (r : Regs) (p : Pins) (edge : Nat) : Nodes where
  mainOut  := mainMux c edge r.cursor
  pedOut   := pedMux c edge r.cursor
  cfgFault := cfgFault c
  cfgCause := cfgCause c
  tableOk  := tableValid c
  code     := sampleCode c p
  nxt      := lookup c edge r.cursor (sampleCode c p)

end Sys2Proof.Machine
end

