-- ==== Sys2Proof/Machine/State.lean ====
section
/-! DEFINITION. The state of the machine, the reasons a step could stop, and the state after reset. -/

namespace Sys2Proof.Machine

/-- The state. `regs` is what the spec calls the state of the engine (10_state.md R23); the rest is its
build, its pins, and the model's count of edges. -/
structure State where
  /-- The two registers (R20, R22). -/
  regs  : Regs
  /-- The constants of the build (R32). -/
  cfg   : Cfg
  /-- The input pins at the coming clock edge (R24 to R26). -/
  pins  : Pins
  /-- The input pins at the edges after it, in order; where the list ends the environment is free
  (notes/assumptions/2). -/
  env   : List Pins
  /-- The model's own field: how many clock edges there have been, the index of the free values
  (notes/assumptions/6). -/
  edges : Nat
  /-- The combinational nodes, the output ports among them (R27 to R30). -/
  nodes : Nodes
  deriving DecidableEq, Repr

/-- Why a step would stop with a fault. -/
inductive Fault where
  /-- `raise ConfigFault(cause)` (00_scope.md R9). Raised by nothing: the configuration fault "is raised by
  no instruction and at no time" (60_exceptions.md R160); it is a constant, read on `cfg_fault`. Safe. -/
  | configFault (cause : BitVec 2)
  deriving DecidableEq, Repr

/-- Why a step would be refused. -/
inductive Refusal where
  /-- An instruction that has no meaning in the model. Raised by nothing: every instruction has one. Safe. -/
  | notModelled (mnemonic : String)
  deriving DecidableEq, Repr

/-- The state right after reset of a build: the registers of R35, the outputs following them, and an
environment that is free from the first edge on (notes/assumptions/9). -/
def resetState (c : Cfg) : State where
  regs  := resetRegs c 0
  cfg   := c
  pins  := freePins 0
  env   := []
  edges := 0
  nodes := nodesOf c (resetRegs c 0) (freePins 0) 0

/-- The state right after reset of this hardware: the reference table with the default entries
(R7, R180). -/
def State.reset : State := resetState (refCfg ⟨3, 3, 3, 4, 4, 4⟩)

end Sys2Proof.Machine
end

