-- ==== Sys2Proof/Machine/Ops.lean ====
section
/-! DEFINITION. The operations every meaning is built from: what an edge does to the registers, the
clock edge itself, the drives of the combinational nodes, the configuration fault, and the placing of an
instruction where the machine finds it. -/

namespace Sys2Proof.Machine

/-- `MemRead(TABLE, s)` in a state (20_memory.md R41, R42). -/
def tableRow (s : State) (k : StateId) : RowWord := memReadTable s.cfg s.edges k

/-- `table_ok` in a state (R150). -/
def tableOk (s : State) : Bool := tableValid s.cfg

/-- The sampled code in a state (R100). -/
def codeNow (s : State) : Code := sampleCode s.cfg s.pins

/-- The successor the table gives in a state (R102). -/
def nxtNow (s : State) : StateId := lookup s.cfg s.edges s.regs.cursor (codeNow s)

/-- The control word of the coming edge (R66). -/
def ctlNow (s : State) : CtlWord := ctlWord s.cfg s.regs s.pins

/-- Loading the cursor with a state loads the hold counter with that state's hold (41_hold_timer.md R90). -/
def enter (s : State) (k : StateId) : Regs := ⟨k, holdField (tableRow s k)⟩

/-- `hold_cnt <- hold_cnt - 1` on 8 bits, the cursor unchanged (R91, R95). -/
def countDown (r : Regs) : Regs := ⟨r.cursor, r.holdCnt - 1⟩

/-- TAKING THE CONFIGURATION FAULT (60_exceptions.md R163; 45_table_validation.md R153): "No state is saved, no
mode changes, no vector is fetched": the registers keep their values. The lamps are dark because the output mux
blanks them while `table_ok = 0` (R83). There is no return from the fault (R164). -/
def takeConfigFault (r : Regs) : Regs := r

/-- EMIT_MAIN's drive of `main_out` (R47, R80). -/
def driveMain (s : State) : State :=
  { s with nodes := { s.nodes with mainOut := mainMux s.cfg s.edges s.regs.cursor } }

/-- EMIT_PED's drive of `ped_out` (R47, R81). -/
def drivePed (s : State) : State :=
  { s with nodes := { s.nodes with pedOut := pedMux s.cfg s.edges s.regs.cursor } }

/-- SAMPLE's drive of `code` (R100). -/
def driveCode (s : State) : State :=
  { s with nodes := { s.nodes with code := codeNow s } }

/-- NEXT's drive of `nxt` (R102). -/
def driveNxt (s : State) : State :=
  { s with nodes := { s.nodes with nxt := nxtNow s } }

/-- VALIDATE's drive of `table_ok`, `cfg_fault`, `cfg_cause` (R150, R152). -/
def driveStatus (s : State) : State :=
  { s with nodes := { s.nodes with
      tableOk := tableOk s, cfgFault := cfgFault s.cfg, cfgCause := cfgCause s.cfg } }

/-- All five combinational operations together: they are active at every instant (30_encoding.md R72). -/
def settle (s : State) : State := drivePed (driveMain (driveNxt (driveCode (driveStatus s))))

/-- The pins at the edge after the coming one: the next of the schedule, free where it ends. -/
def nextPins (s : State) : Pins :=
  match s.env with
  | p :: _ => p
  | [] => freePins (s.edges + 1)

/-- One rising edge of `clk`: the registers take their new values together (00_scope.md R9, R111), the
environment presents the pins of the next edge, and the combinational nodes settle. -/
def clockEdge (r : Regs) (s : State) : State :=
  settle { s with regs := r, pins := nextPins s, env := s.env.tail, edges := s.edges + 1 }

/-- What an edge does to the registers, in the priority order of 43_sequencer.md R110, where `nxt` is the
successor that the row in execution lists for the sampled code. -/
def edgeRegs (nxt : StateId) (s : State) : Regs :=
  if s.pins.rst then enter s Config.initState
  else if !tableOk s then takeConfigFault s.regs
  else if expire s.regs s.pins then enter s nxt
  else if s.pins.tick then countDown s.regs
  else s.regs

/-- One edge of the engine cycle of a row: R110 with that row as the current one (R3, R114), the row's successors
standing for `T[cursor].next`. DESIGN CHOICE (notes/assumptions/24): the spec executes a row only where the table
holds it at the cursor; executed anywhere else, only its `next` fields take effect, and its `main`, `ped` and `hold`
are not read: the lamps and the hold loaded are those of the table's rows, the hold counted is `hold_cnt`. -/
def rowEdge (r : Row) (s : State) : State :=
  clockEdge (edgeRegs (successor r.next (codeNow s)) s) s

/-- A build in which a row word stands where the machine fetches its row: at the cursor (20_memory.md R41), or
at row 0 where the cursor names no row. -/
def placeRow (w : RowWord) (s : State) : State :=
  let k : StateId := if s.regs.cursor.toNat < s.cfg.nStates then s.regs.cursor else Config.initState
  settle { s with
    regs := ⟨k, holdField w⟩
    cfg  := { s.cfg with rom := s.cfg.rom.writeRow k.toNat w, nStates := max 1 s.cfg.nStates }
    pins := ⟨false, true, s.pins.inPort⟩ }

/-- A build whose table is valid or not, as asked: the reference table where it must become valid, its
entry for row 0 and code 0 taken out where it must become invalid. -/
def forceTable (ok : Bool) (c : Cfg) : Cfg :=
  if tableValid c = ok then c
  else if ok then refCfg ⟨3, 3, 3, 4, 4, 4⟩
  else { c with
    rom := c.rom.writeRow 0 (romRow c 0 ||| 0xF0000), nStates := max 1 (min Config.maxStates c.nStates) }

/-- A hold counter that is zero, one, or neither, as asked (R33; both at once cannot occur, R66). -/
def forceHold (zero one : Bool) (h : BitVec 8) : BitVec 8 :=
  if zero then 0 else if one then 1 else if h.toNat < 2 then 2 else h

/-- A state in which the machine forms a given control word at the coming edge (R66). -/
def placeCtl (w : CtlWord) (s : State) : State :=
  settle { s with
    regs := ⟨s.regs.cursor, forceHold (w.getLsbD 2) (w.getLsbD 1) s.regs.holdCnt⟩
    cfg  := forceTable (w.getLsbD 3) s.cfg
    pins := ⟨w.getLsbD 4, w.getLsbD 0, s.pins.inPort⟩ }

/-- A state in which an instruction of opcode_table.json is the one the next step runs. The combinational
operations need nothing placed: every step runs them (R72). -/
def placeTableWord (s : State) (nbits w : Nat) : State :=
  match tableBytes nbits with
  | some 1 => placeCtl (BitVec.ofNat 5 (w % 2 ^ nbits)) s
  | some 6 => placeRow (BitVec.ofNat 48 (w % 2 ^ nbits)) s
  | _ => s

end Sys2Proof.Machine
end

