-- ==== Sys2Proof/Machine/Combinational.lean ====
section
/-! DEFINITION. The five combinational operations (30_encoding.md R72): each drives its nodes with the
value the spec gives, from the registers and pins as they stand; no clock edge passes and no register changes. -/

namespace Sys2Proof.Machine

/-- EMIT_MAIN: drives `main_out` (40_output_mux.md R80). -/
def execEmitMain (s : State) : Host.Outcome State Fault Refusal := .next (driveMain s)

/-- EMIT_PED: drives `ped_out` (R81). -/
def execEmitPed (s : State) : Host.Outcome State Fault Refusal := .next (drivePed s)

/-- SAMPLE: drives `code` (42_next_state_decoder.md R100). -/
def execSample (s : State) : Host.Outcome State Fault Refusal := .next (driveCode s)

/-- NEXT: drives `nxt` (R102). -/
def execNext (s : State) : Host.Outcome State Fault Refusal := .next (driveNxt s)

/-- VALIDATE: drives `table_ok`, `cfg_fault` and `cfg_cause` (45_table_validation.md R150, R152). -/
def execValidate (s : State) : Host.Outcome State Fault Refusal := .next (driveStatus s)

end Sys2Proof.Machine
end

