-- ==== Sys2Proof/Machine/Rows.lean ====
section
/-! DEFINITION. The row words: one meaning for the generic row and one for each row of the reference
table. Executing a row is one engine cycle (00_scope.md R3; 43_sequencer.md R114), which is as long as its hold and may
never end (41_hold_timer.md R96); a meaning here is one clock edge of it, so that a row is executed by as many
steps as its hold asks for, and RESET can come in between (notes/assumptions/1). A row that the table does not hold at the
cursor takes effect through its `next` fields alone (DESIGN CHOICE, notes/assumptions/24). -/

namespace Sys2Proof.Machine

/-- ROW, any row word (30_encoding.md R60). -/
def execRow (r : Row) (s : State) : Host.Outcome State Fault Refusal := .next (rowEdge r s)

/-- GoWest (44_state_table.md R131). -/
def execGoWest (s : State) : Host.Outcome State Fault Refusal := .next (rowEdge goWestRow s)

/-- WaitWest (R132). -/
def execWaitWest (s : State) : Host.Outcome State Fault Refusal := .next (rowEdge waitWestRow s)

/-- GoSouth, with its three `OPEN` entries (R133, R140). -/
def execGoSouth (gs5 gs6 gs7 : StateId) (s : State) : Host.Outcome State Fault Refusal :=
  .next (rowEdge (goSouthRow gs5 gs6 gs7) s)

/-- WaitSouth (R134). -/
def execWaitSouth (s : State) : Host.Outcome State Fault Refusal := .next (rowEdge waitSouthRow s)

/-- GoPed, with its three `OPEN` entries (R135, R140). -/
def execGoPed (gp5 gp6 gp7 : StateId) (s : State) : Host.Outcome State Fault Refusal :=
  .next (rowEdge (goPedRow gp5 gp6 gp7) s)

/-- PedFlashOff1 (R136). -/
def execPedFlashOff1 (s : State) : Host.Outcome State Fault Refusal := .next (rowEdge pedFlashOff1Row s)

/-- PedFlashOn1 (R137). -/
def execPedFlashOn1 (s : State) : Host.Outcome State Fault Refusal := .next (rowEdge pedFlashOn1Row s)

/-- PedFlashOff2 (R138). -/
def execPedFlashOff2 (s : State) : Host.Outcome State Fault Refusal := .next (rowEdge pedFlashOff2Row s)

/-- PedFlashOn2 (R139). -/
def execPedFlashOn2 (s : State) : Host.Outcome State Fault Refusal := .next (rowEdge pedFlashOn2Row s)

end Sys2Proof.Machine
end

