-- ==== Sys2Proof/Machine/Sequencer.lean ====
section
/-! DEFINITION. The six sequenced operations, each one rising clock edge (30_encoding.md R66;
70_reset_and_hazards.md R190: each takes exactly one edge). An operation has its effect whenever it is executed; which one
an edge executes is the step's business (notes/assumptions/14). -/

namespace Sys2Proof.Machine

/-- RESET: `cursor <- INIT_STATE; hold_cnt <- T[INIT_STATE].hold` (43_sequencer.md R112). -/
def execReset (s : State) : Host.Outcome State Fault Refusal :=
  .next (clockEdge (enter s Config.initState) s)

/-- REFUSE: no register changes; the edge under the configuration fault (45_table_validation.md R153). -/
def execRefuse (s : State) : Host.Outcome State Fault Refusal :=
  .next (clockEdge (takeConfigFault s.regs) s)

/-- ADVANCE_Z: sample, look up, load cursor and hold; the hold was zero (42_next_state_decoder.md R103;
41_hold_timer.md R93). -/
def execAdvanceZ (s : State) : Host.Outcome State Fault Refusal :=
  .next (clockEdge (enter s (nxtNow s)) s)

/-- ADVANCE_T: the same effect on the last tick of the hold (R103; 41_hold_timer.md R92). -/
def execAdvanceT (s : State) : Host.Outcome State Fault Refusal :=
  .next (clockEdge (enter s (nxtNow s)) s)

/-- COUNT: `hold_cnt <- hold_cnt - 1`, the cursor unchanged (41_hold_timer.md R91). -/
def execCount (s : State) : Host.Outcome State Fault Refusal :=
  .next (clockEdge (countDown s.regs) s)

/-- IDLE: no register changes; the engine waits inside the hold (41_hold_timer.md R94). -/
def execIdle (s : State) : Host.Outcome State Fault Refusal :=
  .next (clockEdge s.regs s)

end Sys2Proof.Machine
end

