-- ==== Sys2Proof/Machine/Dispatch.lean ====
section
/-! DEFINITION. The meaning of every instruction: one arm per constructor. -/

namespace Sys2Proof.Machine

def exec (i : Instr) (s : State) : Host.Outcome State Fault Refusal :=
  match i with
  | .row r => Sys2Proof.Machine.execRow r s
  | .goWest => Sys2Proof.Machine.execGoWest s
  | .waitWest => Sys2Proof.Machine.execWaitWest s
  | .goSouth gs5 gs6 gs7 => Sys2Proof.Machine.execGoSouth gs5 gs6 gs7 s
  | .waitSouth => Sys2Proof.Machine.execWaitSouth s
  | .goPed gp5 gp6 gp7 => Sys2Proof.Machine.execGoPed gp5 gp6 gp7 s
  | .pedFlashOff1 => Sys2Proof.Machine.execPedFlashOff1 s
  | .pedFlashOn1 => Sys2Proof.Machine.execPedFlashOn1 s
  | .pedFlashOff2 => Sys2Proof.Machine.execPedFlashOff2 s
  | .pedFlashOn2 => Sys2Proof.Machine.execPedFlashOn2 s
  | .reset => Sys2Proof.Machine.execReset s
  | .refuse => Sys2Proof.Machine.execRefuse s
  | .advanceZ => Sys2Proof.Machine.execAdvanceZ s
  | .advanceT => Sys2Proof.Machine.execAdvanceT s
  | .count => Sys2Proof.Machine.execCount s
  | .idle => Sys2Proof.Machine.execIdle s
  | .emitMain => Sys2Proof.Machine.execEmitMain s
  | .emitPed => Sys2Proof.Machine.execEmitPed s
  | .sample => Sys2Proof.Machine.execSample s
  | .next => Sys2Proof.Machine.execNext s
  | .validate => Sys2Proof.Machine.execValidate s

end Sys2Proof.Machine
end

