-- ==== Sys2Proof/Machine/Step.lean ====
section
/-! DEFINITION. One step: one rising edge of `clk` (43_sequencer.md R110, level E of 00_scope.md R10). -/

namespace Sys2Proof.Machine

/-- One step: form the control word, decode it, execute the operation it selects (30_encoding.md R66). The
same step is one edge of the row at the cursor (`Obligations.StepRunsTheRowAtTheCursor`). -/
def step (s : State) : Host.Outcome State Fault Refusal := exec (decodeCtl (ctlNow s)) s

/-- The state in which the next step runs an instruction of opcode_table.json
(notes/assumptions/17 says what is placed). -/
def State.withFetchWord (s : State) (nbits w : Nat) : State := placeTableWord s nbits w

end Sys2Proof.Machine
end

