-- ==== Sys2Proof/Machine/Fsm.lean ====
section
/-! DEFINITION. The `.fsm` notation for tables and its pseudo-forms (30_encoding.md R70, R71): from the
characters of a text to its row words. The engine does not read it; it is how a table is written down. -/

namespace Sys2Proof.Machine.Fsm

/-- Why a text is no table. -/
inductive Err where
  /-- No line holds a state (`N_STATES >= 1`, 00_scope.md R7). -/
  | noStates
  /-- More than nine lines (R70). -/
  | tooManyStates
  /-- A line that is not of the form R70 gives. -/
  | badLine (line : Nat)
  /-- Two lines with one name (R70: unique in the text). -/
  | sameName (line : Nat)
  /-- A successor that no line names. -/
  | unknownName (line : Nat)
  deriving DecidableEq, Repr

/-- One line of a table, before names are resolved. -/
structure Line where
  name : List Char
  main : Nat
  ped  : Nat
  hold : Nat
  next : List (List Char)
  deriving DecidableEq, Repr

/-- Split at every character of a kind. Never empty. -/
def splitAt (p : Char → Bool) : List Char → List (List Char)
  | [] => [[]]
  | c :: cs =>
    match splitAt p cs with
    | [] => [[c]]
    | w :: ws => if p c then [] :: w :: ws else (c :: w) :: ws

/-- Drop a comment: `#` to the end of the line, but for a `#` between brackets or right after `*`, which
begins a raw successor (notes/assumptions/21). -/
def dropComment : Bool → List Char → List Char
  | _, [] => []
  | inside, '*' :: '#' :: cs => '*' :: '#' :: dropComment inside cs
  | inside, c :: cs =>
    if c = '#' ∧ inside = false then []
    else c :: dropComment (if c = '[' then true else if c = ']' then false else inside) cs

/-- The words of a line. -/
def words (cs : List Char) : List (List Char) :=
  (splitAt (fun c => c == ' ' || c == '\t' || c == '\r') cs).filter fun w => !w.isEmpty

/-- Take a leading text off. -/
def strip : List Char → List Char → Option (List Char)
  | [], cs => some cs
  | _ :: _, [] => none
  | k :: ks, c :: cs => if k = c then strip ks cs else none

/-- A digit's value. -/
def digit (c : Char) : Option Nat :=
  if '0' ≤ c ∧ c ≤ '9' then some (c.toNat - '0'.toNat)
  else if 'a' ≤ c ∧ c ≤ 'f' then some (c.toNat - 'a'.toNat + 10)
  else if 'A' ≤ c ∧ c ≤ 'F' then some (c.toNat - 'A'.toNat + 10)
  else none

/-- A number in a base, from its digits. -/
def number (base : Nat) : Nat → List Char → Option Nat
  | acc, [] => some acc
  | acc, c :: cs =>
    match digit c with
    | some d => if d < base then number base (base * acc + d) cs else none
    | none => none

/-- A decimal literal. -/
def decimal (cs : List Char) : Option Nat := if cs.isEmpty then none else number 10 0 cs

/-- A literal: decimal, hexadecimal after `0x`, binary after `0b` (00_scope.md R8). -/
def literal : List Char → Option Nat
  | '0' :: 'x' :: c :: cs => number 16 0 (c :: cs)
  | '0' :: 'b' :: c :: cs => number 2 0 (c :: cs)
  | cs => decimal cs

/-- Keep a number that is at most a bound. -/
def atMost (top : Nat) : Option Nat → Option Nat
  | some n => if n ≤ top then some n else none
  | none => none

/-- `g(R) = 4`, `g(Y) = 2`, `g(G) = 1`, `g(-) = 0` (R71). -/
def lamp : List Char → Option Nat
  | ['R'] => some 4
  | ['Y'] => some 2
  | ['G'] => some 1
  | ['-'] => some 0
  | _ => none

/-- `main=`: a literal, or `ew:<a>,ns:<b>`, which is `(g(a) << 3) | g(b)` (R70, R71). -/
def mainValue (cs : List Char) : Option Nat :=
  match strip ['e', 'w', ':'] cs with
  | some rest =>
    match splitAt (fun c => c == ',') rest with
    | [a, b] =>
      match lamp a, (strip ['n', 's', ':'] b).bind lamp with
      | some x, some y => some (x <<< 3 ||| y)
      | _, _ => none
    | _ => none
  | none => atMost 63 (literal cs)

/-- `ped=`: a literal, or `OFF`, `DONT`, `WALK`, `BOTH` (R70, R71). -/
def pedValue (cs : List Char) : Option Nat :=
  if cs = ['O', 'F', 'F'] then some 0
  else if cs = ['D', 'O', 'N', 'T'] then some 1
  else if cs = ['W', 'A', 'L', 'K'] then some 2
  else if cs = ['B', 'O', 'T', 'H'] then some 3
  else atMost 3 (literal cs)

/-- An identifier: a letter or `_`, then letters, digits and `_` (notes/assumptions/21). -/
def identifier : List Char → Bool
  | [] => false
  | c :: cs => (c.isAlpha || c == '_') && cs.all fun d => d.isAlpha || d.isDigit || d == '_'

/-- Take the closing bracket off. -/
def unbracket (cs : List Char) : Option (List Char) :=
  match cs.reverse with
  | ']' :: rest => some rest.reverse
  | _ => none

/-- `next=`: eight entries between brackets, or `*<n>` for eight times one (R70, R71). -/
def nextValue : List Char → Option (List (List Char))
  | '*' :: n => some (List.replicate 8 n)
  | '[' :: rest =>
    match unbracket rest with
    | some inner =>
      let es := splitAt (fun c => c == ',') inner
      if es.length = 8 then some es else none
    | none => none
  | _ => none

/-- The value of a field `<key>=<value>`. -/
def field (key : List Char) (w : List Char) : Option (List Char) := strip (key ++ ['=']) w

/-- One line, from its words; `hold=` may be omitted and is then 5 (R70, R71). -/
def parseLine (ws : List (List Char)) : Option Line :=
  match ws with
  | [s, n, m, p, x] =>
    if s = ['s', 't', 'a', 't', 'e'] ∧ identifier n = true then do
      let mv ← (field ['m', 'a', 'i', 'n'] m).bind mainValue
      let pv ← (field ['p', 'e', 'd'] p).bind pedValue
      let xv ← (field ['n', 'e', 'x', 't'] x).bind nextValue
      pure ⟨n, mv, pv, 5, xv⟩
    else none
  | [s, n, m, p, h, x] =>
    if s = ['s', 't', 'a', 't', 'e'] ∧ identifier n = true then do
      let mv ← (field ['m', 'a', 'i', 'n'] m).bind mainValue
      let pv ← (field ['p', 'e', 'd'] p).bind pedValue
      let hv ← (field ['h', 'o', 'l', 'd'] h).bind fun d => atMost 255 (decimal d)
      let xv ← (field ['n', 'e', 'x', 't'] x).bind nextValue
      pure ⟨n, mv, pv, hv, xv⟩
    else none
  | _ => none

/-- The lines of a text, in row order; a line with no word is no row. -/
def parseLines : Nat → List (List Char) → Except Err (List Line)
  | _, [] => .ok []
  | k, cs :: rest =>
    match words (dropComment false cs) with
    | [] => parseLines k rest
    | ws =>
      match parseLine ws with
      | none => .error (.badLine k)
      | some l =>
        match parseLines (k + 1) rest with
        | .ok ls => .ok (l :: ls)
        | .error e => .error e

/-- The row index a name is bound to (R70). -/
def indexOf (name : List Char) : Nat → List Line → Option Nat
  | _, [] => none
  | k, l :: ls => if l.name = name then some k else indexOf name (k + 1) ls

/-- A successor: a name, `-` for no entry, or `#<k>` for the raw value `k` (R70). -/
def successorId (ls : List Line) : List Char → Option StateId
  | ['-'] => some 0xF
  | '#' :: k => (atMost 15 (decimal k)).map (BitVec.ofNat 4)
  | n => (indexOf n 0 ls).map (BitVec.ofNat 4)

/-- The row word of a line (R60, R70). -/
def assembleLine (ls : List Line) (l : Line) : Option RowWord :=
  match l.next.map (successorId ls) with
  | [some a, some b, some c, some d, some e, some f, some g, some h] =>
    some (rowWord ⟨BitVec.ofNat 6 l.main, BitVec.ofNat 2 l.ped, BitVec.ofNat 8 l.hold, ⟨a, b, c, d, e, f, g, h⟩⟩)
  | _ => none

/-- The row words of lines `k` and on. -/
def assembleLines (ls : List Line) : Nat → List Line → Except Err (List RowWord)
  | _, [] => .ok []
  | k, l :: rest =>
    if (indexOf l.name 0 ls) ≠ some k then .error (.sameName k)
    else
      match assembleLine ls l with
      | none => .error (.unknownName k)
      | some w =>
        match assembleLines ls (k + 1) rest with
        | .ok ws => .ok (w :: ws)
        | .error e => .error e

/-- Assemble a text: its row words, `N_STATES` being their number (R70). -/
def assemble (text : List Char) : Except Err (List RowWord) :=
  match parseLines 0 (splitAt (fun c => c == '\n') text) with
  | .error e => .error e
  | .ok ls =>
    if ls.isEmpty then .error .noStates
    else if 9 < ls.length then .error .tooManyStates
    else assembleLines ls 0 ls

/-- The build of an assembled table: its ROM and `N_STATES` (R70), with a port of a given width. -/
def build (ws : List RowWord) (inW : Nat) : Memory × Nat × Nat := (Memory.ofRows ws, ws.length, inW)

end Sys2Proof.Machine.Fsm
end

