-- ==== Sys2Proof/Machine/Levels.lean ====
section
/-! DEFINITION. The other two levels of description (00_scope.md R10): the cycle-level machine, level C
(43_sequencer.md R114 to R116), and the tick-level one, level K (R118); the pure step function of level E (R110); and
the words a claim about a run needs: the schedule of inputs, the edges of an engine cycle, a run of steps. -/

namespace Sys2Proof.Machine

/-- The step function of level E on the pair of registers, as R110 writes it. -/
def edgeStep (c : Cfg) (r : Regs) (p : Pins) : Regs :=
  if p.rst = true then ⟨Config.initState, holdField (romRow c 0)⟩
  else if tableValid c = false then r
  else if r.holdCnt = 0 ∨ (r.holdCnt = 1 ∧ p.tick = true) then
    let nxt := entry c r.cursor.toNat (sampleCode c p).toNat
    ⟨nxt, holdField (romRow c nxt.toNat)⟩
  else if p.tick = true then ⟨r.cursor, r.holdCnt - 1⟩
  else r

/-- The tick-level step of R118. -/
def tickStep (c : Cfg) (r : Regs) (p : Pins) : Regs :=
  if r.holdCnt = 1 then
    let nxt := entry c r.cursor.toNat (sampleCode c p).toNat
    ⟨nxt, holdField (romRow c nxt.toNat)⟩
  else ⟨r.cursor, r.holdCnt - 1⟩

/-- `delta(s, i) = T[s].next[i]` (R115). -/
def delta (c : Cfg) (s : StateId) (i : Code) : StateId := entry c s.toNat i.toNat

/-- `lambda(s) = (T[s].main, T[s].ped)` (R115). -/
def lambda (c : Cfg) (s : StateId) : BitVec 6 × BitVec 2 :=
  (mainField (romRow c s.toNat), pedField (romRow c s.toNat))

/-- `dwell(s) = T[s].hold` (R115). -/
def dwell (c : Cfg) (s : StateId) : BitVec 8 := holdField (romRow c s.toNat)

/-- The run of level C: `c_(k+1) = delta(c_k, i_k)`; the state after all samples (R115). -/
def afterSamples (c : Cfg) (s : StateId) : List Code → StateId
  | [] => s
  | i :: is => afterSamples c (delta c s i) is

/-- The cursor values `c_1 .. c_(n+1)` that `n` samples visit (R116). -/
def visited (c : Cfg) (s : StateId) : List Code → List StateId
  | [] => [s]
  | i :: is => s :: visited c (delta c s i) is

/-- The inputs a state is about to see, the coming edge first. -/
def inputs (s : State) : List Pins := s.pins :: s.env

/-- How many of a list of edges are ticks. -/
def ticks (ps : List Pins) : Nat := ps.countP fun p => p.tick

/-- No edge of a list is a RESET edge. -/
def noReset (ps : List Pins) : Bool := ps.all fun p => !p.rst

/-- The edges of one engine cycle of a state with a given hold, after the edge that entered it (R114,
R117 e): `ws` the edges inside the hold, `last` the edge that leaves the state. -/
def isCycle (hold : BitVec 8) (ws : List Pins) (last : Pins) : Bool :=
  noReset ws && !last.rst &&
    (if hold = 0 then ws.isEmpty else last.tick && ticks ws + 1 == hold.toNat)

/-- A list of engine cycles, one after another, from a state. -/
def areCycles (c : Cfg) : StateId → List (List Pins × Pins) → Bool
  | _, [] => true
  | s, (ws, last) :: cs =>
    isCycle (dwell c s) ws last && areCycles c (delta c s (sampleCode c last)) cs

/-- All the edges of a list of engine cycles, in order. -/
def edgesOf : List (List Pins × Pins) → List Pins
  | [] => []
  | (ws, last) :: cs => ws ++ last :: edgesOf cs

/-- The samples `i_k`, one at the last edge of each cycle (R116). -/
def samplesOf (c : Cfg) (cs : List (List Pins × Pins)) : List Code := cs.map fun x => sampleCode c x.2

/-- The state of a build that has just entered a row, by RESET or ADVANCE: the hold is loaded (R90). -/
def justEntered (s : State) (k : StateId) : Prop := s.regs = ⟨k, dwell s.cfg k⟩

/-- `n` steps of the machine. -/
def runFor (n : Nat) (s : State) : Host.Outcome State Fault Refusal := Host.Core.run Sys2Proof.core n s

/-- The coming edge is an ADVANCE edge, the only kind that reads the input port (42_next_state_decoder.md R101). -/
def advances (s : State) : Bool := !s.pins.rst && tableOk s && expire s.regs s.pins

end Sys2Proof.Machine
end

