-- ==== Sys2Proof/Safety.lean ====
section
/-! DEFINITION. What a legal build is, what holds of every state after reset, and what safe lamps are
(44_state_table.md R142, R143). -/

namespace Sys2Proof.Machine

/-- At most one of three bits is set. -/
def atMostOne (g : BitVec 3) : Bool := g == 0 || g == 1 || g == 2 || g == 4

/-- The safety invariant of a lamp pattern (R142): not both greens, at most one lamp in each group. -/
def lampsSafe (m : BitVec 6) : Bool :=
  !(m.getLsbD 3 && m.getLsbD 0) && atMostOne (m.extractLsb' 3 3) && atMostOne (m.extractLsb' 0 3)

/-- Pedestrian exclusivity (R143): walk only with both vehicle groups red. -/
def walkExclusive (m : BitVec 6) (p : BitVec 2) : Bool := !p.getLsbD 1 || m == 0b100100

/-- The lamps of a state, as the output ports show them, are safe. -/
def safeLamps (s : State) : Bool :=
  lampsSafe s.nodes.mainOut && walkExclusive s.nodes.mainOut s.nodes.pedOut

/-- Every row of a table has safe lamps (R142, R143, as properties of a table). -/
def tableSafe (c : Cfg) : Bool :=
  (List.range c.nStates).all fun k =>
    lampsSafe (mainField (romRow c k)) && walkExclusive (mainField (romRow c k)) (pedField (romRow c k))

/-- A legal build (00_scope.md R7; 10_state.md R32): `1 <= N_STATES <= 9`, `IN_W >= 3`, a ROM of `N_STATES` rows in
canonical form. -/
def Cfg.legal (c : Cfg) : Bool :=
  decide (1 ≤ c.nStates) && decide (c.nStates ≤ Config.maxStates) && decide (Config.minInW ≤ c.inW) &&
    c.rom.wf && c.rom.below (6 * c.nStates)

/-- The combinational nodes carry the values of the combinational operations (30_encoding.md R72). -/
def settled (s : State) : Prop := s.nodes = nodesOf s.cfg s.regs s.pins s.edges

/-- What every clock edge leaves as it was, and what passes with it: the build is unchanged, and every byte of
the table with it (20_memory.md R43); the schedule of inputs moves on by one edge; the nodes are settled. -/
def edgeFrame (s t : State) : Prop :=
  t.cfg = s.cfg ∧ (∀ a, t.cfg.rom.read a = s.cfg.rom.read a) ∧ t.pins = nextPins s ∧ t.env = s.env.tail ∧
    t.edges = s.edges + 1 ∧ settled t

/-- The output ports show what 43_sequencer.md R110 calls `outputs` of the state. -/
def portsFollow (s : State) : Prop :=
  s.nodes.mainOut =
      (if tableValid s.cfg = true then (romRow s.cfg s.regs.cursor.toNat).extractLsb' 0 6 else 0) ∧
    s.nodes.pedOut =
      (if tableValid s.cfg = true then (romRow s.cfg s.regs.cursor.toNat).extractLsb' 6 2 else 0) ∧
    s.nodes.cfgFault = !tableValid s.cfg ∧
    s.nodes.cfgCause = cfgCause s.cfg

/-- The registers as they can be after a reset: the cursor names a row (10_state.md R21), the hold counter is at
most that row's hold (41_hold_timer.md R95), and under the configuration fault both are at their reset values (R153). -/
def regsInv (c : Cfg) (r : Regs) : Prop :=
  r.cursor.toNat < c.nStates ∧ r.holdCnt.toNat ≤ (dwell c r.cursor).toNat ∧
    (tableValid c = false → r = ⟨Config.initState, dwell c Config.initState⟩)

/-- The invariant of every state after reset. -/
def Inv (s : State) : Prop := s.cfg.legal = true ∧ settled s ∧ regsInv s.cfg s.regs

end Sys2Proof.Machine
end

