-- ==== Sys2Proof/Certificates/Slice0/Obligations.lean ====
section
/-! DEFINITION. The statements about the engine, for the provers. Each docstring names the rule of spec/ that its
statement formalises. -/

open Sys2Proof Sys2Proof.Machine

/-! ### Reset -/

/-- 70_reset_and_hazards.md R180: after an edge with `rst = 1` the registers are `(0, T[0].hold)`, and the model's
runs begin there: for the reference table `(0, 5)` and the lamps of GoWest. -/
def Obligations.ResetStateIsGoWestWithFullHold : Prop :=
  (∀ s : State, 1 ≤ s.cfg.nStates → s.pins.rst = true →
    ∃ t, step s = .next t ∧ t.regs = ⟨0, (romRow s.cfg 0).extractLsb' 8 8⟩) ∧
  (∀ c : Cfg, 1 ≤ c.nStates → (resetState c).regs = ⟨0, (romRow c 0).extractLsb' 8 8⟩) ∧
  State.reset.regs = ⟨0, 5⟩ ∧ State.reset.nodes.mainOut = 0x0C ∧ State.reset.nodes.pedOut = 0b01 ∧
  State.reset.nodes.cfgFault = false ∧ State.reset.nodes.cfgCause = 0

/-- 43_sequencer.md R112: RESET loads `INIT_STATE` and that row's hold, nothing else, and under the configuration
fault too, the lamps then still dark; an edge is a RESET edge exactly when `rst = 1`, whatever else is true there:
the configuration fault, `tick`, `in_port`, the state and its hold. That RESET executed where `rst = 0` has this
effect too is the model's choice (notes/assumptions/14). -/
def Obligations.ResetLoadsInitStateAndItsHold : Prop :=
  ∀ s : State, 1 ≤ s.cfg.nStates →
    (∃ t, exec .reset s = .next t ∧ t.regs = ⟨0, (romRow s.cfg 0).extractLsb' 8 8⟩ ∧ edgeFrame s t ∧
      (tableValid s.cfg = false → t.nodes.mainOut = 0 ∧ t.nodes.pedOut = 0)) ∧
    (decodeCtl (ctlNow s) = .reset ↔ s.pins.rst = true) ∧
    (s.pins.rst = true → step s = exec .reset s)

/-! ### The configuration fault -/

/-- 45_table_validation.md R153: REFUSE changes no register, and the lamps are dark after it; an edge is a REFUSE
edge exactly when there is no `rst` and the table is invalid. That REFUSE executed under `rst` or with a valid
table changes no register is the model's choice (notes/assumptions/14). -/
def Obligations.RefuseFreezesTheRegisters : Prop :=
  ∀ s : State,
    (∃ t, exec .refuse s = .next t ∧ t.regs = s.regs ∧ edgeFrame s t ∧
      (tableValid s.cfg = false → t.nodes.mainOut = 0 ∧ t.nodes.pedOut = 0)) ∧
    (decodeCtl (ctlNow s) = .refuse ↔ s.pins.rst = false ∧ tableValid s.cfg = false) ∧
    (s.pins.rst = false → tableValid s.cfg = false → step s = exec .refuse s)

/-- R153, R164: "with an invalid table the registers hold their reset values from the first reset on and for ever",
whatever the inputs and however many resets; all outputs are dark and `cfg_fault` is 1. -/
def Obligations.InvalidTableIsRefusedForEver : Prop :=
  ∀ (s : State) (n : Nat), 1 ≤ s.cfg.nStates → tableValid s.cfg = false → justEntered s 0 →
    ∃ t, runFor n s = .next t ∧ justEntered t 0 ∧ t.cfg = s.cfg ∧
      (1 ≤ n → t.nodes.mainOut = 0 ∧ t.nodes.pedOut = 0 ∧ t.nodes.cfgFault = true)

/-- 40_output_mux.md R83: with an invalid table both lamp outputs are 0, whatever the registers. -/
def Obligations.InvalidTableBlanksTheLamps : Prop :=
  ∀ s : State, tableValid s.cfg = false → settled s → s.nodes.mainOut = 0 ∧ s.nodes.pedOut = 0

/-- 60_exceptions.md R160, R166: nothing raises anything: every instruction, and every step, answers a next state,
in every state. -/
def Obligations.NothingFaultsOrIsRefused : Prop :=
  (∀ (i : Instr) (s : State), ∃ t, exec i s = .next t) ∧ ∀ s : State, ∃ t, step s = .next t

/-- 10_state.md R29, 20_memory.md R43: no instruction changes the build: not one byte of the table, not
`N_STATES`, not `IN_W`; so `cfg_fault` and `cfg_cause` are constants of a run. -/
def Obligations.NoInstructionChangesTheBuild : Prop :=
  ∀ (i : Instr) (s t : State), exec i s = .next t →
    t.cfg = s.cfg ∧ (∀ a, t.cfg.rom.read a = s.cfg.rom.read a) ∧
      (settled s → t.nodes.cfgFault = s.nodes.cfgFault ∧ t.nodes.cfgCause = s.nodes.cfgCause)

/-! ### The hold timer and the control transfer -/

/-- 41_hold_timer.md R91: COUNT takes one from a hold of two or more, leaves the cursor, and the outputs, as they
were; an edge is a COUNT edge exactly on a tick with such a hold, a valid table and no `rst`. That COUNT executed
without a tick, under `rst` or with an invalid table has this effect too is the model's choice
(notes/assumptions/14). -/
def Obligations.CountTakesOneFromTheHold : Prop :=
  ∀ s : State,
    (2 ≤ s.regs.holdCnt.toNat →
      ∃ t, exec .count s = .next t ∧ t.regs.cursor = s.regs.cursor ∧
        t.regs.holdCnt.toNat + 1 = s.regs.holdCnt.toNat ∧ 1 ≤ t.regs.holdCnt.toNat ∧ edgeFrame s t ∧
        (s.regs.cursor.toNat < s.cfg.nStates → settled s →
          t.nodes.mainOut = s.nodes.mainOut ∧ t.nodes.pedOut = s.nodes.pedOut)) ∧
    (decodeCtl (ctlNow s) = .count ↔
      s.pins.rst = false ∧ tableValid s.cfg = true ∧ 2 ≤ s.regs.holdCnt.toNat ∧ s.pins.tick = true)

/-- 41_hold_timer.md R94: IDLE changes no register; an edge is an IDLE edge exactly when there is no tick, the hold
is not zero, the table is valid and there is no `rst`. That IDLE executed where its pattern does not hold (a tick,
a zero hold, `rst`, an invalid table) changes no register is the model's choice (notes/assumptions/14). -/
def Obligations.IdleChangesNoRegister : Prop :=
  ∀ s : State,
    (∃ t, exec .idle s = .next t ∧ t.regs = s.regs ∧ edgeFrame s t) ∧
    (decodeCtl (ctlNow s) = .idle ↔
      s.pins.rst = false ∧ tableValid s.cfg = true ∧ s.regs.holdCnt ≠ 0 ∧ s.pins.tick = false)

/-- 41_hold_timer.md R95: the step performs COUNT on holds of 2 to 255 only, giving 1 to 254: the counter never
wraps. -/
def Obligations.CounterNeverWraps : Prop :=
  ∀ s : State, decodeCtl (ctlNow s) = .count →
    2 ≤ s.regs.holdCnt.toNat ∧
    ∃ t, step s = .next t ∧ t.regs.holdCnt.toNat = s.regs.holdCnt.toNat - 1 ∧
      1 ≤ t.regs.holdCnt.toNat ∧ t.regs.holdCnt.toNat ≤ 254

/-- 42_next_state_decoder.md R103: both ADVANCE operations load the successor that the row at the cursor lists for
the sampled code, and that row's hold (R90), and nothing else; the outputs are then the new row's; and the step
performs ADVANCE_Z on a hold of zero, ADVANCE_T on a hold of one with a tick, never under `rst` or an invalid
table. That ADVANCE executed before the hold has expired or under `rst` has this effect too is the model's choice
(notes/assumptions/14): the step never does that. -/
def Obligations.AdvanceLoadsTheSuccessorAndItsHold : Prop :=
  (∀ s : State, tableValid s.cfg = true → s.regs.cursor.toNat < s.cfg.nStates →
    ∀ i : Instr, i = .advanceZ ∨ i = .advanceT →
      ∃ t, exec i s = .next t ∧
        t.regs.cursor = (romRow s.cfg s.regs.cursor.toNat).extractLsb'
          (16 + 4 * (sampleCode s.cfg s.pins).toNat) 4 ∧
        t.regs.holdCnt = (romRow s.cfg t.regs.cursor.toNat).extractLsb' 8 8 ∧
        t.regs.cursor.toNat < s.cfg.nStates ∧ edgeFrame s t ∧
        t.nodes.mainOut = (romRow s.cfg t.regs.cursor.toNat).extractLsb' 0 6 ∧
        t.nodes.pedOut = (romRow s.cfg t.regs.cursor.toNat).extractLsb' 6 2) ∧
  (∀ s : State,
    (decodeCtl (ctlNow s) = .advanceZ ↔
      s.pins.rst = false ∧ tableValid s.cfg = true ∧ s.regs.holdCnt = 0) ∧
    (decodeCtl (ctlNow s) = .advanceT ↔
      s.pins.rst = false ∧ tableValid s.cfg = true ∧ s.regs.holdCnt = 1 ∧ s.pins.tick = true))

/-- 41_hold_timer.md R93: a hold of zero is left at the next edge, with or without a tick, and the input is
sampled there. -/
def Obligations.ZeroHoldIsLeftAtTheNextEdge : Prop :=
  ∀ s : State, tableValid s.cfg = true → s.regs.cursor.toNat < s.cfg.nStates → s.pins.rst = false →
    s.regs.holdCnt = 0 →
      ∃ t, step s = .next t ∧ justEntered t (delta s.cfg s.regs.cursor (sampleCode s.cfg s.pins))

/-! ### The step -/

/-- 30_encoding.md R66: the decode table: exactly one operation for each vector of conditions. -/
def Obligations.ControlWordSelectsOneOperation : Prop :=
  ∀ c : CtlWord,
    decodeCtl c =
      if c.getLsbD 4 = true then .reset
      else if c.getLsbD 3 = false then .refuse
      else if c.getLsbD 2 = true then .advanceZ
      else if c.getLsbD 1 = true ∧ c.getLsbD 0 = true then .advanceT
      else if c.getLsbD 0 = true then .count
      else .idle

/-- 30_encoding.md R66: the step forms `{rst, table_ok, hold_zero, hold_one, tick}` and executes the operation
it selects: with nothing added, the clock edge being part of each operation's meaning. -/
def Obligations.StepRunsTheControlWord : Prop :=
  ∀ s : State,
    step s = exec (decodeCtl (ctlNow s)) s ∧
    (ctlNow s).getLsbD 4 = s.pins.rst ∧ (ctlNow s).getLsbD 3 = tableValid s.cfg ∧
    (ctlNow s).getLsbD 2 = decide (s.regs.holdCnt = 0) ∧ (ctlNow s).getLsbD 1 = decide (s.regs.holdCnt = 1) ∧
    (ctlNow s).getLsbD 0 = s.pins.tick

/-- 00_scope.md R3: the row at the cursor is the instruction in execution. When the six bytes of the row at the
cursor decode to an instruction, the step is that instruction's `exec`; outside the table the same holds of the free
row word. Both parts rest on the model's choices of notes/assumptions/1 and 5. -/
def Obligations.StepRunsTheRowAtTheCursor : Prop :=
  (∀ (s : State) (i : Instr), s.regs.cursor.toNat < s.cfg.nStates →
    decode (s.cfg.rom.bytesFrom (6 * s.regs.cursor.toNat) 6) = .ok i → step s = exec i s) ∧
  (∀ s : State, step s = exec (decodeRow (tableRow s s.regs.cursor)) s)

/-- 43_sequencer.md R110: one step is the step function of level E on the two registers, and after it the outputs
are `outputs` of the new state. -/
def Obligations.StepIsTheEdgeFunction : Prop :=
  ∀ s : State, 1 ≤ s.cfg.nStates → s.regs.cursor.toNat < s.cfg.nStates →
    ∃ t, step s = .next t ∧ t.regs = edgeStep s.cfg s.regs s.pins ∧ edgeFrame s t ∧ portsFollow t

/-- 43_sequencer.md R118: with every hold at least one, a step at a tick is the tick-level step, a step without a
tick changes no register, and the hold counter stays at least one. -/
def Obligations.StepIsTheTickLevelStep : Prop :=
  ∀ s : State, tableValid s.cfg = true → s.regs.cursor.toNat < s.cfg.nStates →
    (∀ k : StateId, k.toNat < s.cfg.nStates → dwell s.cfg k ≠ 0) → s.regs.holdCnt ≠ 0 → s.pins.rst = false →
      ∃ t, step s = .next t ∧ t.regs.holdCnt ≠ 0 ∧
        (s.pins.tick = true → t.regs = tickStep s.cfg s.regs s.pins) ∧
        (s.pins.tick = false → t.regs = s.regs)

/-! ### Rows -/

/-- 30_encoding.md R60: the bit positions of a row word's fields. -/
def Obligations.RowWordFields : Prop :=
  ∀ w : RowWord,
    (rowFields w).main = w.extractLsb' 0 6 ∧ (rowFields w).ped = w.extractLsb' 6 2 ∧
    (rowFields w).hold = w.extractLsb' 8 8 ∧
    (∀ i : Code, successor (rowFields w).next i = w.extractLsb' (16 + 4 * i.toNat) 4) ∧
    rowWord (rowFields w) = w

/-- 43_sequencer.md R110, R114, for a row as the instruction in execution: one edge of any of the ten row
instructions, in every state. Where the hold has expired the row's successor for the sampled code is entered;
before that the row waits; RESET and the configuration fault come first. That a row is executed one edge at a time
is the model's choice (notes/assumptions/1), and so is what a row does that the table does not hold at the cursor:
only its successors take effect (notes/assumptions/24). -/
def Obligations.EveryRowRunsOneEdge : Prop :=
  ∀ (i : Instr) (r : Row) (s : State), rowOf i = some r →
    ∃ t, exec i s = .next t ∧ edgeFrame s t ∧
      (s.pins.rst = true → t.regs = enter s 0) ∧
      (s.pins.rst = false → tableValid s.cfg = false → t.regs = s.regs) ∧
      (s.pins.rst = false → tableValid s.cfg = true → expire s.regs s.pins = true →
        t.regs = enter s (successor r.next (sampleCode s.cfg s.pins))) ∧
      (s.pins.rst = false → tableValid s.cfg = true → expire s.regs s.pins = false → s.pins.tick = true →
        t.regs = ⟨s.regs.cursor, s.regs.holdCnt - 1⟩) ∧
      (s.pins.rst = false → tableValid s.cfg = true → expire s.regs s.pins = false → s.pins.tick = false →
        t.regs = s.regs)

/-- ROW, any row word (executed one edge at a time, wherever it stands: notes/assumptions/1, 24): at the edge at
which its hold expires it enters the successor it lists for the sampled code, with that row's hold (R103), and the
outputs are then that row's. -/
def Obligations.RowEntersItsSuccessor : Prop :=
  ∀ (r : Row) (s : State), s.pins.rst = false → tableValid s.cfg = true → expire s.regs s.pins = true →
    (successor r.next (sampleCode s.cfg s.pins)).toNat < s.cfg.nStates →
      ∃ t, exec (.row r) s = .next t ∧
        justEntered t (successor r.next (sampleCode s.cfg s.pins)) ∧ edgeFrame s t ∧
        (t.nodes.mainOut, t.nodes.pedOut) = lambda s.cfg t.regs.cursor

/-- 44_state_table.md R131 (a row executed one edge at a time, wherever it stands: notes/assumptions/1, 24):
GoWest: its word, its fields, and where it goes: codes 0 and 1 stay, codes 2 to 7 go to WaitWest. -/
def Obligations.GoWestFollowsItsRow : Prop :=
  decodeRow 0x11111100054C = .goWest ∧ rowOf .goWest = some (rowFields 0x11111100054C) ∧
  (rowFields 0x11111100054C).main = 0b001100 ∧ (rowFields 0x11111100054C).ped = 0b01 ∧
  (rowFields 0x11111100054C).hold = 5 ∧
  ∀ s : State, s.cfg.nStates = 9 → s.pins.rst = false → tableValid s.cfg = true → expire s.regs s.pins = true →
    ∃ t, exec .goWest s = .next t ∧ edgeFrame s t ∧
      justEntered t (if (sampleCode s.cfg s.pins).toNat ≤ 1 then 0 else 1)

/-- R132, R134 (notes/assumptions/1, 24): WaitWest and WaitSouth: their words, their fields, and their one
successor for every code: GoSouth, GoPed. -/
def Obligations.WaitRowsAlwaysGoOn : Prop :=
  decodeRow 0x222222220554 = .waitWest ∧ rowOf .waitWest = some (rowFields 0x222222220554) ∧
  (rowFields 0x222222220554).main = 0b010100 ∧ (rowFields 0x222222220554).ped = 0b01 ∧
  (rowFields 0x222222220554).hold = 5 ∧
  decodeRow 0x444444440562 = .waitSouth ∧ rowOf .waitSouth = some (rowFields 0x444444440562) ∧
  (rowFields 0x444444440562).main = 0b100010 ∧ (rowFields 0x444444440562).ped = 0b01 ∧
  (rowFields 0x444444440562).hold = 5 ∧
  ∀ s : State, s.cfg.nStates = 9 → s.pins.rst = false → tableValid s.cfg = true → expire s.regs s.pins = true →
    (∃ t, exec .waitWest s = .next t ∧ edgeFrame s t ∧ justEntered t 2) ∧
    (∃ t, exec .waitSouth s = .next t ∧ edgeFrame s t ∧ justEntered t 4)

/-- R133, R140 (notes/assumptions/1, 24): GoSouth: its word with the default entries, its fields, and where it
goes, for every value of its three `OPEN` entries: codes 0 and 2 stay, 1, 3 and 4 go to WaitSouth, 5, 6 and 7 where
`GS5`, `GS6`, `GS7` say. -/
def Obligations.GoSouthFollowsItsRow : Prop :=
  decodeRow 0x333332320561 = .goSouth 3 3 3 ∧ rowOf (.goSouth 3 3 3) = some (rowFields 0x333332320561) ∧
  ∀ gs5 gs6 gs7 : StateId,
    (∃ n, rowOf (.goSouth gs5 gs6 gs7) = some ⟨0b100001, 0b01, 5, n⟩) ∧
    ∀ s : State, s.cfg.nStates = 9 → s.pins.rst = false → tableValid s.cfg = true → expire s.regs s.pins = true →
      gsLegal gs5 = true → gsLegal gs6 = true → gsLegal gs7 = true →
      ∃ t, exec (.goSouth gs5 gs6 gs7) s = .next t ∧ edgeFrame s t ∧
        justEntered t
          (if sampleCode s.cfg s.pins = 0 ∨ sampleCode s.cfg s.pins = 2 then 2
            else if sampleCode s.cfg s.pins = 5 then gs5
            else if sampleCode s.cfg s.pins = 6 then gs6
            else if sampleCode s.cfg s.pins = 7 then gs7
            else 3)

/-- R135, R140 (notes/assumptions/1, 24): GoPed: its word with the default entries, its fields, and where it goes,
for every value of its three `OPEN` entries: codes 0 and 4 stay, 1, 2 and 3 go to PedFlashOff1, 5, 6 and 7 where
`GP5`, `GP6`, `GP7` say. -/
def Obligations.GoPedFollowsItsRow : Prop :=
  decodeRow 0x4444555405A4 = .goPed 4 4 4 ∧ rowOf (.goPed 4 4 4) = some (rowFields 0x4444555405A4) ∧
  ∀ gp5 gp6 gp7 : StateId,
    (∃ n, rowOf (.goPed gp5 gp6 gp7) = some ⟨0b100100, 0b10, 5, n⟩) ∧
    ∀ s : State, s.cfg.nStates = 9 → s.pins.rst = false → tableValid s.cfg = true → expire s.regs s.pins = true →
      gpLegal gp5 = true → gpLegal gp6 = true → gpLegal gp7 = true →
      ∃ t, exec (.goPed gp5 gp6 gp7) s = .next t ∧ edgeFrame s t ∧
        justEntered t
          (if sampleCode s.cfg s.pins = 0 ∨ sampleCode s.cfg s.pins = 4 then 4
            else if sampleCode s.cfg s.pins = 5 then gp5
            else if sampleCode s.cfg s.pins = 6 then gp6
            else if sampleCode s.cfg s.pins = 7 then gp7
            else 5)

/-- R136 to R139 (notes/assumptions/1, 24): the four flash rows: their words, their fields, and the fixed chain
they are, whatever the input. -/
def Obligations.FlashRowsAreAFixedChain : Prop :=
  decodeRow 0x666666660524 = .pedFlashOff1 ∧ rowOf .pedFlashOff1 = some (rowFields 0x666666660524) ∧
  decodeRow 0x777777770564 = .pedFlashOn1 ∧ rowOf .pedFlashOn1 = some (rowFields 0x777777770564) ∧
  decodeRow 0x888888880524 = .pedFlashOff2 ∧ rowOf .pedFlashOff2 = some (rowFields 0x888888880524) ∧
  decodeRow 0x000000000564 = .pedFlashOn2 ∧ rowOf .pedFlashOn2 = some (rowFields 0x000000000564) ∧
  (∃ n, rowOf .pedFlashOff1 = some ⟨0x24, 0b00, 5, n⟩) ∧ (∃ n, rowOf .pedFlashOn1 = some ⟨0x24, 0b01, 5, n⟩) ∧
  (∃ n, rowOf .pedFlashOff2 = some ⟨0x24, 0b00, 5, n⟩) ∧ (∃ n, rowOf .pedFlashOn2 = some ⟨0x24, 0b01, 5, n⟩) ∧
  ∀ s : State, s.cfg.nStates = 9 → s.pins.rst = false → tableValid s.cfg = true → expire s.regs s.pins = true →
    (∃ t, exec .pedFlashOff1 s = .next t ∧ edgeFrame s t ∧ justEntered t 6) ∧
    (∃ t, exec .pedFlashOn1 s = .next t ∧ edgeFrame s t ∧ justEntered t 7) ∧
    (∃ t, exec .pedFlashOff2 s = .next t ∧ edgeFrame s t ∧ justEntered t 8) ∧
    (∃ t, exec .pedFlashOn2 s = .next t ∧ edgeFrame s t ∧ justEntered t 0)

/-! ### The combinational operations and the outputs -/

/-- 40_output_mux.md R80: EMIT_MAIN drives `main_out` with the row's `main` field, or 0 under the configuration
fault, and changes nothing else. -/
def Obligations.EmitMainDrivesTheRowsLamps : Prop :=
  ∀ s : State, s.regs.cursor.toNat < s.cfg.nStates ∨ tableValid s.cfg = false →
    exec .emitMain s = .next { s with nodes := { s.nodes with
      mainOut := if tableValid s.cfg = true then (romRow s.cfg s.regs.cursor.toNat).extractLsb' 0 6 else 0 } }

/-- 40_output_mux.md R81: EMIT_PED drives `ped_out` with the row's `ped` field, or 0 under the configuration
fault, and changes nothing else. -/
def Obligations.EmitPedDrivesTheRowsLamps : Prop :=
  ∀ s : State, s.regs.cursor.toNat < s.cfg.nStates ∨ tableValid s.cfg = false →
    exec .emitPed s = .next { s with nodes := { s.nodes with
      pedOut := if tableValid s.cfg = true then (romRow s.cfg s.regs.cursor.toNat).extractLsb' 6 2 else 0 } }

/-- 42_next_state_decoder.md R100 and 30_encoding.md R65: SAMPLE drives `code` with the low three bits of the port,
`4 * ped + 2 * ns + ew`, and changes nothing else. -/
def Obligations.SampleTakesTheLowThreeBits : Prop :=
  ∀ s : State, Config.minInW ≤ s.cfg.inW →
    ∃ t, exec .sample s = .next t ∧ t.nodes.code.toNat = s.pins.inPort % 8 ∧
      t.nodes.code.toNat = 4 * (s.pins.inPort.testBit 2).toNat + 2 * (s.pins.inPort.testBit 1).toNat +
        (s.pins.inPort.testBit 0).toNat ∧
      t = { s with nodes := { s.nodes with code := t.nodes.code } }

/-- 42_next_state_decoder.md R102: NEXT drives `nxt` with the row's field for the code, a row of a valid table, and
changes nothing else. -/
def Obligations.NextLooksUpTheSuccessor : Prop :=
  ∀ s : State, s.regs.cursor.toNat < s.cfg.nStates →
    ∃ t, exec .next s = .next t ∧
      t.nodes.nxt = (romRow s.cfg s.regs.cursor.toNat).extractLsb' (16 + 4 * (sampleCode s.cfg s.pins).toNat) 4 ∧
      (tableValid s.cfg = true → t.nodes.nxt.toNat < s.cfg.nStates) ∧
      t = { s with nodes := { s.nodes with nxt := t.nodes.nxt } }

/-- 45_table_validation.md R150, R152: VALIDATE drives `table_ok` with `TableValid(T)`, `cfg_fault` with its negation
and the cause bits with whether some entry is dangling, missing; it changes nothing else. -/
def Obligations.ValidateJudgesEveryEntry : Prop :=
  ∀ s : State,
    ∃ t, exec .validate s = .next t ∧
      (t.nodes.tableOk = true ↔
        ∀ k i : Nat, k < s.cfg.nStates → i < 8 →
          ((romRow s.cfg k).extractLsb' (16 + 4 * i) 4).toNat < s.cfg.nStates) ∧
      t.nodes.cfgFault = !t.nodes.tableOk ∧
      (t.nodes.cfgCause.getLsbD 0 = true ↔
        ∃ k i : Nat, k < s.cfg.nStates ∧ i < 8 ∧ (romRow s.cfg k).extractLsb' (16 + 4 * i) 4 = 0xF#4) ∧
      (t.nodes.cfgCause.getLsbD 1 = true ↔
        ∃ k i : Nat, k < s.cfg.nStates ∧ i < 8 ∧
          s.cfg.nStates ≤ ((romRow s.cfg k).extractLsb' (16 + 4 * i) 4).toNat ∧
          (romRow s.cfg k).extractLsb' (16 + 4 * i) 4 ≠ 0xF#4) ∧
      t = { s with nodes := { s.nodes with
        tableOk := t.nodes.tableOk, cfgFault := t.nodes.cfgFault, cfgCause := t.nodes.cfgCause } }

/-- 30_encoding.md R72: the combinational operations are "active at every instant": after every step the nodes carry
their values already, so that executing one of the five changes nothing. -/
def Obligations.CombinationalOperationsAreAlwaysActive : Prop :=
  (∀ (i : Instr) (s : State), i.format = .comb → settled s → exec i s = .next s) ∧
  ∀ s t : State, step s = .next t → settled t

/-- R150, R152: for a table of at most nine rows, `TableValid` is "no missing and no dangling entry", and
`cfg_cause = 0` exactly when `cfg_fault = 0`. -/
def Obligations.CauseIsZeroExactlyWithoutFault : Prop :=
  ∀ c : Cfg, c.nStates ≤ Config.maxStates →
    (tableValid c = true ↔
      ∀ k i : Nat, k < c.nStates → i < 8 → missing c k i = false ∧ dangling c k i = false) ∧
    (cfgCause c = 0 ↔ cfgFault c = false)

/-- 40_output_mux.md R82: the lamp outputs depend on the cursor (and the build) alone. -/
def Obligations.OutputsDependOnTheCursorAlone : Prop :=
  ∀ s s' : State, settled s → settled s' → s.cfg = s'.cfg → s.regs.cursor = s'.regs.cursor →
    s.regs.cursor.toNat < s.cfg.nStates →
      s.nodes.mainOut = s'.nodes.mainOut ∧ s.nodes.pedOut = s'.nodes.pedOut

/-- 40_output_mux.md R84: a step changes the cursor, and so the outputs, only at a RESET edge or at an ADVANCE edge
whose successor is another state. -/
def Obligations.OutputsChangeOnlyAtResetOrAdvance : Prop :=
  ∀ s : State, settled s → s.regs.cursor.toNat < s.cfg.nStates →
    ∃ t, step s = .next t ∧
      (t.regs.cursor = s.regs.cursor →
        t.nodes.mainOut = s.nodes.mainOut ∧ t.nodes.pedOut = s.nodes.pedOut) ∧
      (t.regs.cursor ≠ s.regs.cursor →
        (s.pins.rst = true ∧ s.regs.cursor ≠ 0) ∨
        (advances s = true ∧ delta s.cfg s.regs.cursor (sampleCode s.cfg s.pins) ≠ s.regs.cursor))

/-! ### When the input is read -/

/-- 42_next_state_decoder.md R101: at an edge that is no ADVANCE edge the input port has no effect at all: the whole
next state is the same for any levels on it. -/
def Obligations.InputIsReadOnlyAtAdvance : Prop :=
  ∀ (s : State) (x : Nat), advances s = false →
    step { s with pins := { s.pins with inPort := x } } = step s

/-- 42_next_state_decoder.md R100: bits 3 and above of the port never influence anything. -/
def Obligations.UpperPortBitsAreIgnored : Prop :=
  ∀ (s : State) (x y : Nat), Config.minInW ≤ s.cfg.inW → x % 8 = y % 8 →
    step { s with pins := { s.pins with inPort := x } } = step { s with pins := { s.pins with inPort := y } }

/-- R101 for a whole run: replacing the levels on the port at an edge that is not an ADVANCE edge changes no later
state and no later output. The schedule of later inputs is the model's own (notes/assumptions/2). -/
def Obligations.UnsampledInputNeverMatters : Prop :=
  ∀ (s s' u : State) (j n x : Nat) (p : Pins),
    (inputs s)[j]? = some p → inputs s' = (inputs s).set j { p with inPort := x } →
    s'.regs = s.regs → s'.cfg = s.cfg → s'.edges = s.edges →
    runFor j s = .next u → advances u = false →
      runFor (j + 1 + n) s' = runFor (j + 1 + n) s

/-! ### Invariants -/

/-- What holds after reset holds at reset, of every legal build (10_state.md R21, R35). -/
def Obligations.InvariantHoldsAfterReset : Prop :=
  ∀ c : Cfg, c.legal = true → Inv (resetState c)

/-- Every step keeps the invariant: a legal build, settled nodes, the cursor naming a row, the hold counter at most
that row's hold, and reset values under the configuration fault (R21, R95, R153). -/
def Obligations.StepKeepsTheInvariant : Prop :=
  ∀ s t : State, Inv s → step s = .next t → Inv t

/-- 10_state.md R21: in every state reachable from the registers' reset state (R35), of any legal build and under
any inputs, the cursor names a row of the table; with an invalid table it stays at `INIT_STATE`. -/
def Obligations.CursorAlwaysNamesARow : Prop :=
  ∀ (s t : State) (n : Nat), s.cfg.legal = true → justEntered s 0 → runFor n s = .next t →
    t.cfg = s.cfg ∧ t.regs.cursor.toNat < s.cfg.nStates ∧ t.regs.cursor.toNat ≤ 8 ∧
      (tableValid s.cfg = false → t.regs.cursor = 0)

/-! ### Encodings -/

/-- Decode and encode agree: every well-formed row or control instruction, with every operand, is read back from
its bytes (30_encoding.md R60, R66, R68). -/
def Obligations.DecodeOfEncode : Prop :=
  ∀ i : Instr, i.wf = true → i.format ≠ .comb → decode (encode i) = .ok i

/-- Every 48-bit word is a row (30_encoding.md R68): it decodes to a well-formed instruction of format `ROW48`, which is
encoded in the word's own bytes. -/
def Obligations.EveryWordIsARow : Prop :=
  ∀ w : RowWord, (decodeRow w).wf = true ∧ (decodeRow w).format = .row48 ∧
    encode (decodeRow w) = rowBytes w ∧ decode (rowBytes w) = .ok (decodeRow w)

/-- 30_encoding.md R66 and 95_test_vectors.md E1, E4: a few words of each format, written out. -/
def Obligations.KnownWordsDecode : Prop :=
  decode [0x4C, 0x05, 0x00, 0x11, 0x11, 0x11] = .ok .goWest ∧
  decode [0x64, 0x05, 0x00, 0x00, 0x00, 0x00] = .ok .pedFlashOn2 ∧
  decode [0x10] = .ok .reset ∧ decode [0x00] = .ok .refuse ∧ decode [0x0C] = .ok .advanceZ ∧
  decode [0x0B] = .ok .advanceT ∧ decode [0x09] = .ok .count ∧ decode [0x08] = .ok .idle ∧
  decode [] = .error .selectedByNoBits ∧ decode [0x20] = .error .ctlHighBits ∧
  decode [0x4C, 0x05] = .error .badLength

/-- 20_memory.md R45: writing the ROM image of a table and reading it back gives the same ROM, and row for row the
same words. -/
def Obligations.RomImageRoundTrip : Prop :=
  ∀ ws : List RowWord,
    Memory.ofImage ((Memory.ofRows ws).image ws.length) = Memory.ofRows ws ∧
    ∀ (j : Nat) (h : j < ws.length),
      (Memory.ofImage ((Memory.ofRows ws).image ws.length)).readRow j = ws[j]

/-- 20_memory.md R44: the ROM image: six bytes a row, row 0 first, `{ped, main}`, `hold`, then the successors in pairs,
the even one in the low nibble. -/
def Obligations.RomImageByteOrder : Prop :=
  ∀ (c : Cfg) (k : Nat), k < c.nStates →
    (c.rom.image c.nStates).length = 6 * c.nStates ∧
    (c.rom.image c.nStates)[6 * k]? = some ((romRow c k).extractLsb' 6 2 ++ (romRow c k).extractLsb' 0 6) ∧
    (c.rom.image c.nStates)[6 * k + 1]? = some ((romRow c k).extractLsb' 8 8) ∧
    (c.rom.image c.nStates)[6 * k + 2]? = some (entry c k 1 ++ entry c k 0) ∧
    (c.rom.image c.nStates)[6 * k + 3]? = some (entry c k 3 ++ entry c k 2) ∧
    (c.rom.image c.nStates)[6 * k + 4]? = some (entry c k 5 ++ entry c k 4) ∧
    (c.rom.image c.nStates)[6 * k + 5]? = some (entry c k 7 ++ entry c k 6)

/-- 30_encoding.md R71: the pseudo-forms of `.fsm`: a pair of lamp letters is `(g(a) << 3) | g(b)` with `g(R) = 4`,
`g(Y) = 2`, `g(G) = 1`, `g(-) = 0`; `*<n>` is eight times `<n>`; the pedestrian words are 1, 2, 0, 3. -/
def Obligations.FsmPseudoForms : Prop :=
  (∀ a b : Char, ∀ x y : Nat, Fsm.lamp [a] = some x → Fsm.lamp [b] = some y →
    Fsm.mainValue ['e', 'w', ':', a, ',', 'n', 's', ':', b] = some (8 * x + y)) ∧
  (∀ n : List Char, Fsm.nextValue ('*' :: n) = some [n, n, n, n, n, n, n, n]) ∧
  Fsm.lamp ['R'] = some 4 ∧ Fsm.lamp ['Y'] = some 2 ∧ Fsm.lamp ['G'] = some 1 ∧ Fsm.lamp ['-'] = some 0 ∧
  Fsm.pedValue ['D', 'O', 'N', 'T'] = some 1 ∧ Fsm.pedValue ['W', 'A', 'L', 'K'] = some 2 ∧
  Fsm.pedValue ['O', 'F', 'F'] = some 0 ∧ Fsm.pedValue ['B', 'O', 'T', 'H'] = some 3

/-! ### The reference table -/

/-- 44_state_table.md R141: the reference table is total and closed, for every legal value of its six `OPEN` entries. -/
def Obligations.ReferenceTableIsValid : Prop :=
  ∀ o : Config.OpenEntries, openLegal o = true →
    (∀ k i : Nat, k < 9 → i < 8 → (entry (refCfg o) k i).toNat < 9) ∧
    tableValid (refCfg o) = true ∧ cfgFault (refCfg o) = false ∧ cfgCause (refCfg o) = 0

/-- R142, R143: every row of the reference table has safe lamps, and exactly one lamp of each vehicle group lit. -/
def Obligations.ReferenceTableIsSafe : Prop :=
  ∀ (o : Config.OpenEntries) (k : Nat), k < 9 →
    lampsSafe ((romRow (refCfg o) k).extractLsb' 0 6) = true ∧
    walkExclusive ((romRow (refCfg o) k).extractLsb' 0 6) ((romRow (refCfg o) k).extractLsb' 6 2) = true ∧
    (romRow (refCfg o) k).extractLsb' 0 3 ≠ 0#3 ∧ (romRow (refCfg o) k).extractLsb' 3 3 ≠ 0#3 ∧
    ((romRow (refCfg o) k).extractLsb' 7 1 = 1#1 ↔ k = 4)

/-- R142, R143: "the property holds of `main_out` at every instant after reset": with a table of safe rows, no run
from a state after reset ever shows unsafe lamps, whatever the inputs. -/
def Obligations.LampsAreSafeAtEveryInstant : Prop :=
  ∀ (s t : State) (n : Nat), Inv s → tableSafe s.cfg = true → runFor n s = .next t → safeLamps t = true

/-- R144: from GoPed with a vehicle demand and no pedestrian, the states are exactly the four flash states and GoWest,
whatever the later inputs; the pedestrian lamps on the way; twenty ticks from leaving GoPed to entering GoWest. -/
def Obligations.FlashSequenceIsFixed : Prop :=
  ∀ (o : Config.OpenEntries) (i j1 j2 j3 j4 : Code), i = 1 ∨ i = 2 ∨ i = 3 →
    visited (refCfg o) 4 [i, j1, j2, j3, j4] = [4, 5, 6, 7, 8, 0] ∧
    ((visited (refCfg o) 4 [i, j1, j2, j3, j4]).map fun k => (lambda (refCfg o) k).2) =
      [0b10, 0b00, 0b01, 0b00, 0b01, 0b01] ∧
    (dwell (refCfg o) 5).toNat + (dwell (refCfg o) 6).toNat + (dwell (refCfg o) 7).toNat +
      (dwell (refCfg o) 8).toNat = 20

/-- R145: with no demand the engine rests in GoWest, GoSouth or GoPed: any number of cycles. -/
def Obligations.NoDemandRests : Prop :=
  ∀ (o : Config.OpenEntries) (k : StateId) (n : Nat), k = 0 ∨ k = 2 ∨ k = 4 →
    afterSamples (refCfg o) k (List.replicate n 0) = k

/-- R146: every transition stays or goes to the next state of the ring, and only GoWest, GoSouth and GoPed stay. -/
def Obligations.TransitionsFollowTheRing : Prop :=
  ∀ (o : Config.OpenEntries) (s : StateId) (i : Code), openLegal o = true → s.toNat < 9 →
    (delta (refCfg o) s i = s ∨ (delta (refCfg o) s i).toNat = (s.toNat + 1) % 9) ∧
    (delta (refCfg o) s i = s → s = 0 ∨ s = 2 ∨ s = 4)

/-- R147: rows 0, 2 and 4 depend on the code, the other six do not. -/
def Obligations.OnlyGoStatesReadTheInput : Prop :=
  ∀ (o : Config.OpenEntries) (s : StateId), s.toNat < 9 →
    ((∃ i j : Code, delta (refCfg o) s i ≠ delta (refCfg o) s j) ↔ s = 0 ∨ s = 2 ∨ s = 4)

/-- 43_sequencer.md R116, 95_test_vectors.md S6: the source's scenario, five samples and six cursor values. -/
def Obligations.ScenarioVisitsSixStates : Prop :=
  ∀ o : Config.OpenEntries, visited (refCfg o) 0 [0, 0, 2, 2, 2] = [0, 0, 0, 1, 2, 2]

/-! ### Level E refines level C -/

/-- 43_sequencer.md R117 (c), (d), (e): a run over the edges of any number of engine cycles visits the states of the
cycle-level machine, one sample a cycle, taken at its last edge; it ends in the state level C gives, just entered. -/
def Obligations.EdgesRefineCycles : Prop :=
  ∀ (s : State) (k : StateId) (cs : List (List Pins × Pins)) (rest : List Pins),
    tableValid s.cfg = true → k.toNat < s.cfg.nStates → justEntered s k →
    areCycles s.cfg k cs = true → inputs s = edgesOf cs ++ rest →
      ∃ t, runFor (edgesOf cs).length s = .next t ∧ t.cfg = s.cfg ∧
        justEntered t (afterSamples s.cfg k (samplesOf s.cfg cs))

/-- R117 (a), (b), (e), R92: inside an engine cycle the cursor and the outputs stay those of the state, the counter
counts the ticks down, and the last edge alone is an ADVANCE edge. -/
def Obligations.StateIsShownForItsWholeHold : Prop :=
  ∀ (s : State) (k : StateId) (ws : List Pins) (last : Pins) (rest : List Pins) (n : Nat),
    tableValid s.cfg = true → k.toNat < s.cfg.nStates → justEntered s k → settled s →
    isCycle (dwell s.cfg k) ws last = true → inputs s = ws ++ last :: rest → n ≤ ws.length →
      ∃ t, runFor n s = .next t ∧ t.regs.cursor = k ∧
        (t.nodes.mainOut, t.nodes.pedOut) = lambda s.cfg k ∧
        t.regs.holdCnt.toNat + ticks (ws.take n) = (dwell s.cfg k).toNat ∧
        (advances t = true ↔ n = ws.length)

/-- 41_hold_timer.md R92, R96, 70_reset_and_hazards.md R191: given as many ticks as the hold asks for, and no reset,
the state is left, at the edge of the `hold`-th tick after it was entered. -/
def Obligations.EnoughTicksLeaveTheState : Prop :=
  ∀ (s : State) (k : StateId) (ps rest : List Pins),
    tableValid s.cfg = true → k.toNat < s.cfg.nStates → justEntered s k → dwell s.cfg k ≠ 0 →
    noReset ps = true → (dwell s.cfg k).toNat ≤ ticks ps → inputs s = ps ++ rest →
      ∃ n u t, n < ps.length ∧ runFor n s = .next u ∧ u.regs.cursor = k ∧ advances u = true ∧
        ticks (ps.take (n + 1)) = (dwell s.cfg k).toNat ∧
        runFor (n + 1) s = .next t ∧ justEntered t (delta s.cfg k (sampleCode s.cfg u.pins))
end

