-- ==== Sys2Proof/Laws/Encoding.lean ====
section
/-! SUPPORT. Packing and unpacking of row words, the successor that a code selects, and what the words of
the reference table are read as. -/

namespace Sys2Proof

open Sys2Proof.Machine

/-- The successor of the unpacked row is the field of the word that the code selects (30_encoding.md R69). -/
theorem successor_rowFields (w : RowWord) (c : Code) :
    successor (rowFields w).next c = nextField w c.toNat := by
  have h : c.toNat < 8 := c.isLt
  unfold successor
  generalize c.toNat = n at h
  interval_cases n <;> rfl

/-- Packing and unpacking: a row word's fields are the fields it was made of. -/
theorem rowFields_rowWord (r : Row) : rowFields (rowWord r) = r := by
  obtain ⟨m, p, h, n0, n1, n2, n3, n4, n5, n6, n7⟩ := r
  simp only [rowFields, rowWord, mainField, pedField, holdField, nextField, Row.mk.injEq, Successors.mk.injEq]
  refine ⟨?_, ?_, ?_, ?_, ?_, ?_, ?_, ?_, ?_, ?_, ?_⟩ <;>
    (apply BitVec.eq_of_getLsbD_eq
     intro i hi
     rw [BitVec.getLsbD_extractLsb']
     repeat rw [BitVec.getLsbD_append]
     interval_cases i <;> simp)

/-- Unpacking and packing: a row word is the word of its fields. -/
theorem rowWord_rowFields (w : RowWord) : rowWord (rowFields w) = w := by
  simp only [rowFields, rowWord, mainField, pedField, holdField, nextField]
  apply BitVec.eq_of_getLsbD_eq
  intro i hi
  repeat rw [BitVec.getLsbD_append]
  interval_cases i <;> simp [-BitVec.getLsbD_eq_getElem, BitVec.getLsbD_extractLsb']

/-- The six bytes of a row word, put together least significant first, are the word (20_memory.md R44). -/
theorem append_bytes (w : RowWord) :
    (w.extractLsb' 40 8 ++ w.extractLsb' 32 8 ++ w.extractLsb' 24 8 ++ w.extractLsb' 16 8 ++ w.extractLsb' 8 8 ++
      w.extractLsb' 0 8 : RowWord) = w := by
  apply BitVec.eq_of_getLsbD_eq
  intro i hi
  repeat rw [BitVec.getLsbD_append]
  interval_cases i <;> simp [-BitVec.getLsbD_eq_getElem, BitVec.getLsbD_extractLsb']

/-- The instruction a row is named by has that row. -/
theorem rowOf_of_namedRow {r : Row} {i : Instr} (h : namedRow r = some i) : rowOf i = some r := by
  unfold namedRow at h
  split_ifs at h with h1 h2 h3 h4 h5 h6 h7 h8 h9 <;> cases h <;> simp only [rowOf]
  · rw [h1]
  · rw [h2]
  · exact congrArg some h3.1.symm
  · rw [h4]
  · exact congrArg some h5.1.symm
  · rw [h6]
  · rw [h7]
  · rw [h8]
  · rw [h9]

/-- A decoded row word has the fields of the word. -/
theorem rowOf_decodeRow (w : RowWord) : rowOf (decodeRow w) = some (rowFields w) := by
  unfold decodeRow
  cases h : namedRow (rowFields w) with
  | none => rfl
  | some i => exact rowOf_of_namedRow h

end Sys2Proof
end

