-- ==== Sys2Proof/Laws/Memory.lean ====
section
/-! SUPPORT. The laws of the table ROM's contents: a read after a write, the canonical form kept by every
operation, and equal reads making equal contents. -/

namespace Sys2Proof.Machine.Memory

theorem wfFrom_mono {lo lo' : Nat} (h : lo' ≤ lo) : ∀ {m : Memory}, wfFrom lo m = true → wfFrom lo' m = true
  | [], _ => rfl
  | (k, b) :: m, hm => by
    simp only [wfFrom, Bool.and_eq_true, decide_eq_true_eq] at hm ⊢
    exact ⟨⟨by omega, hm.1.2⟩, hm.2⟩

theorem read_below_wfFrom {lo a : Nat} (h : a < lo) : ∀ {m : Memory}, wfFrom lo m = true → m.read a = erased
  | [], _ => rfl
  | (k, b) :: m, hm => by
    simp only [wfFrom, Bool.and_eq_true, decide_eq_true_eq] at hm
    have hk : ¬ k = a := by omega
    simp only [read, hk, if_false]
    exact read_below_wfFrom (by omega) hm.2

/-- A read after a write: the byte written at its address, the byte from before at every other. -/
theorem read_write {lo : Nat} (a : Nat) (b : Byte) (x : Nat) :
    ∀ {m : Memory}, wfFrom lo m = true → (m.write a b).read x = if x = a then b else m.read x
  | [], _ => by
    unfold write
    by_cases hb : b = erased <;> by_cases hx : a = x <;> simp [hb, read, hx, eq_comm]
  | (k, c) :: m, hm => by
    simp only [wfFrom, Bool.and_eq_true, decide_eq_true_eq] at hm
    have ih := read_write a b x hm.2
    unfold write
    by_cases h1 : a < k
    · by_cases hb : b = erased
      · simp only [h1, hb, if_true]
        by_cases hx : x = a
        · subst hx
          have hk : ¬ k = x := by omega
          simp only [read, hk, if_false, if_true]
          exact read_below_wfFrom (by omega) hm.2
        · simp [hx]
      · simp only [h1, hb, if_true, if_false]
        by_cases hx : x = a
        · simp [hx, read]
        · simp [hx, read, Ne.symm hx]
    · by_cases h2 : a = k
      · subst h2
        by_cases hb : b = erased
        · simp only [h1, hb, if_true, if_false]
          by_cases hx : x = a
          · subst hx
            simp only [if_true]
            exact read_below_wfFrom (by omega) hm.2
          · simp [hx, read, Ne.symm hx]
        · simp only [h1, hb, if_true, if_false]
          by_cases hx : x = a
          · simp [hx, read]
          · simp [hx, read, Ne.symm hx]
      · simp only [h1, h2, if_false, read]
        by_cases hk : k = x
        · subst hk
          simp [Ne.symm h2]
        · simp only [hk, if_false]
          exact ih

theorem wfFrom_write {lo : Nat} (a : Nat) (b : Byte) :
    ∀ {m : Memory}, wfFrom lo m = true → lo ≤ a → wfFrom lo (m.write a b) = true
  | [], _, ha => by
    unfold write
    by_cases hb : b = erased <;> simp [hb, wfFrom, ha]
  | (k, c) :: m, hm, ha => by
    have hm0 := hm
    simp only [wfFrom, Bool.and_eq_true, decide_eq_true_eq] at hm
    unfold write
    by_cases h1 : a < k
    · by_cases hb : b = erased
      · simpa only [h1, hb, if_true] using hm0
      · simp only [h1, hb, if_true, if_false, wfFrom, Bool.and_eq_true, decide_eq_true_eq, bne_iff_ne, ne_eq,
          not_false_eq_true]
        exact ⟨⟨ha, trivial⟩, ⟨by omega, by simpa using hm.1.2⟩, hm.2⟩
    · by_cases h2 : a = k
      · subst h2
        by_cases hb : b = erased
        · simp only [h1, hb, if_true, if_false]
          exact wfFrom_mono (by omega) hm.2
        · simp only [h1, hb, if_true, if_false, wfFrom, Bool.and_eq_true, decide_eq_true_eq, bne_iff_ne, ne_eq,
            not_false_eq_true]
          exact ⟨⟨ha, trivial⟩, hm.2⟩
      · simp only [h1, h2, if_false, wfFrom, Bool.and_eq_true, decide_eq_true_eq]
        exact ⟨hm.1, wfFrom_write a b hm.2 (by omega)⟩

/-- A write keeps the canonical form. -/
theorem wf_write {m : Memory} (h : m.wf = true) (a : Nat) (b : Byte) : (m.write a b).wf = true :=
  wfFrom_write a b h (Nat.zero_le a)

/-- A run of writes keeps the canonical form. -/
theorem wf_writeBytes : ∀ (bs : List Byte) {m : Memory} (a : Nat), m.wf = true → (m.writeBytes a bs).wf = true
  | [], _, _, h => h
  | b :: bs, _, a, h => wf_writeBytes bs (a + 1) (wf_write h a b)

theorem wf_writeRow {m : Memory} (h : m.wf = true) (k : Nat) (w : RowWord) : (m.writeRow k w).wf = true :=
  wf_writeBytes _ _ h

theorem wf_writeRows : ∀ (ws : List RowWord) {m : Memory} (k : Nat), m.wf = true → (m.writeRows k ws).wf = true
  | [], _, _, h => h
  | w :: ws, _, k, h => wf_writeRows ws (k + 1) (wf_writeRow h k w)

/-- Every table's ROM is in canonical form. -/
theorem wf_ofRows (ws : List RowWord) : (ofRows ws).wf = true := wf_writeRows ws 0 rfl

/-- Every loaded ROM image is in canonical form. -/
theorem wf_ofImage (bs : List Byte) : (ofImage bs).wf = true := wf_writeBytes bs 0 rfl

/-- A run of writes, read back: the byte written inside the run, the byte from before outside it. -/
theorem read_writeBytes : ∀ (bs : List Byte) {m : Memory} (a x : Nat), m.wf = true →
    (m.writeBytes a bs).read x = if h : a ≤ x ∧ x - a < bs.length then bs[x - a]'h.2 else m.read x
  | [], _, _, _, _ => by simp [writeBytes]
  | b :: bs, m, a, x, h => by
    rw [writeBytes, read_writeBytes bs (a + 1) x (wf_write h a b), read_write a b x h]
    by_cases h1 : a + 1 ≤ x ∧ x - (a + 1) < bs.length
    · have h2 : a ≤ x ∧ x - a < (b :: bs).length := by simp only [List.length_cons]; omega
      have h3 : x - a = x - (a + 1) + 1 := by omega
      rw [dif_pos h1, dif_pos h2]
      simp only [h3, List.getElem_cons_succ]
    · by_cases h2 : x = a
      · subst h2
        simp
      · have h3 : ¬ (a ≤ x ∧ x - a < (b :: bs).length) := by simp only [List.length_cons]; omega
        simp only [h1, h2, h3, dite_false, if_false]

/-- Contents in canonical form that read alike are equal. -/
theorem ext_of_wfFrom {lo : Nat} : ∀ {m m' : Memory}, wfFrom lo m = true → wfFrom lo m' = true →
    (∀ a, m.read a = m'.read a) → m = m'
  | [], [], _, _, _ => rfl
  | [], (k, b) :: m', _, h', hr => by
    have := hr k
    simp only [read, if_true, wfFrom, Bool.and_eq_true, bne_iff_ne, ne_eq] at this h'
    exact absurd this.symm h'.1.2
  | (k, b) :: m, [], h, _, hr => by
    have := hr k
    simp only [read, if_true, wfFrom, Bool.and_eq_true, bne_iff_ne, ne_eq] at this h
    exact absurd this h.1.2
  | (k, b) :: m, (k', b') :: m', h, h', hr => by
    simp only [wfFrom, Bool.and_eq_true, decide_eq_true_eq, bne_iff_ne, ne_eq] at h h'
    have hk : k = k' := by
      by_contra hne
      have h1 := hr k
      have h2 := hr k'
      rcases Nat.lt_or_gt_of_ne hne with hlt | hgt
      · simp only [read, if_true, Ne.symm hne, if_false] at h1
        exact h.1.2 (h1.trans (read_below_wfFrom (by omega) h'.2))
      · simp only [read, if_true, hne, if_false] at h2
        exact h'.1.2 (h2.symm.trans (read_below_wfFrom (by omega) h.2))
    subst hk
    have hb : b = b' := by simpa [read] using hr k
    subst hb
    congr 1
    refine ext_of_wfFrom h.2 h'.2 fun a => ?_
    by_cases ha : k = a
    · subst ha
      rw [read_below_wfFrom (Nat.lt_succ_self k) h.2, read_below_wfFrom (Nat.lt_succ_self k) h'.2]
    · simpa [read, ha] using hr a

/-- Equal contents are equal data. -/
theorem ext_of_wf {m m' : Memory} (h : m.wf = true) (h' : m'.wf = true) (hr : ∀ a, m.read a = m'.read a) :
    m = m' := ext_of_wfFrom h h' hr

theorem below_write (top a : Nat) (b : Byte) (ha : a < top) :
    ∀ {m : Memory}, m.below top = true → (m.write a b).below top = true
  | [], _ => by
    unfold write
    by_cases hb : b = erased <;> simp [hb, below, ha]
  | (k, c) :: m, hm => by
    have hm' : k < top ∧ below top m = true := by simpa [below] using hm
    have ih := below_write top a b ha hm'.2
    have hcons : ∀ (x : Host.Cell) (l : Memory), x.1 < top → below top l = true → below top (x :: l) = true :=
      fun x l hx hl => by simpa [below, hx] using hl
    unfold write
    split_ifs
    · exact hm
    · exact hcons _ _ ha hm
    · exact hm'.2
    · exact hcons _ _ ha hm'.2
    · exact hcons _ _ hm'.1 ih

end Sys2Proof.Machine.Memory

namespace Sys2Proof.Machine

/-- The ROM of the state after reset is in canonical form. -/
theorem reset_rom_wf : State.reset.cfg.rom.wf = true := Memory.wf_ofRows _

end Sys2Proof.Machine
end

