-- ==== Sys2Proof/Laws/State.lean ====
section
/-! SUPPORT. What each update of the state does to each field: one lemma per field per update. -/

namespace Sys2Proof.Machine

@[simp] theorem driveMain_regs (s : State) : (driveMain s).regs = s.regs := rfl
@[simp] theorem driveMain_cfg (s : State) : (driveMain s).cfg = s.cfg := rfl
@[simp] theorem driveMain_pins (s : State) : (driveMain s).pins = s.pins := rfl
@[simp] theorem driveMain_env (s : State) : (driveMain s).env = s.env := rfl
@[simp] theorem driveMain_edges (s : State) : (driveMain s).edges = s.edges := rfl
@[simp] theorem driveMain_nodes (s : State) :
    (driveMain s).nodes = { s.nodes with mainOut := mainMux s.cfg s.edges s.regs.cursor } := rfl

@[simp] theorem drivePed_regs (s : State) : (drivePed s).regs = s.regs := rfl
@[simp] theorem drivePed_cfg (s : State) : (drivePed s).cfg = s.cfg := rfl
@[simp] theorem drivePed_pins (s : State) : (drivePed s).pins = s.pins := rfl
@[simp] theorem drivePed_env (s : State) : (drivePed s).env = s.env := rfl
@[simp] theorem drivePed_edges (s : State) : (drivePed s).edges = s.edges := rfl
@[simp] theorem drivePed_nodes (s : State) :
    (drivePed s).nodes = { s.nodes with pedOut := pedMux s.cfg s.edges s.regs.cursor } := rfl

@[simp] theorem driveCode_regs (s : State) : (driveCode s).regs = s.regs := rfl
@[simp] theorem driveCode_cfg (s : State) : (driveCode s).cfg = s.cfg := rfl
@[simp] theorem driveCode_pins (s : State) : (driveCode s).pins = s.pins := rfl
@[simp] theorem driveCode_env (s : State) : (driveCode s).env = s.env := rfl
@[simp] theorem driveCode_edges (s : State) : (driveCode s).edges = s.edges := rfl
@[simp] theorem driveCode_nodes (s : State) :
    (driveCode s).nodes = { s.nodes with code := sampleCode s.cfg s.pins } := rfl

@[simp] theorem driveNxt_regs (s : State) : (driveNxt s).regs = s.regs := rfl
@[simp] theorem driveNxt_cfg (s : State) : (driveNxt s).cfg = s.cfg := rfl
@[simp] theorem driveNxt_pins (s : State) : (driveNxt s).pins = s.pins := rfl
@[simp] theorem driveNxt_env (s : State) : (driveNxt s).env = s.env := rfl
@[simp] theorem driveNxt_edges (s : State) : (driveNxt s).edges = s.edges := rfl
@[simp] theorem driveNxt_nodes (s : State) :
    (driveNxt s).nodes =
      { s.nodes with nxt := lookup s.cfg s.edges s.regs.cursor (sampleCode s.cfg s.pins) } := rfl

@[simp] theorem driveStatus_regs (s : State) : (driveStatus s).regs = s.regs := rfl
@[simp] theorem driveStatus_cfg (s : State) : (driveStatus s).cfg = s.cfg := rfl
@[simp] theorem driveStatus_pins (s : State) : (driveStatus s).pins = s.pins := rfl
@[simp] theorem driveStatus_env (s : State) : (driveStatus s).env = s.env := rfl
@[simp] theorem driveStatus_edges (s : State) : (driveStatus s).edges = s.edges := rfl
@[simp] theorem driveStatus_nodes (s : State) :
    (driveStatus s).nodes =
      { s.nodes with
        tableOk := tableValid s.cfg, cfgFault := cfgFault s.cfg, cfgCause := cfgCause s.cfg } := rfl

@[simp] theorem settle_regs (s : State) : (settle s).regs = s.regs := rfl
@[simp] theorem settle_cfg (s : State) : (settle s).cfg = s.cfg := rfl
@[simp] theorem settle_pins (s : State) : (settle s).pins = s.pins := rfl
@[simp] theorem settle_env (s : State) : (settle s).env = s.env := rfl
@[simp] theorem settle_edges (s : State) : (settle s).edges = s.edges := rfl
@[simp] theorem settle_nodes (s : State) : (settle s).nodes = nodesOf s.cfg s.regs s.pins s.edges := rfl

@[simp] theorem clockEdge_regs (r : Regs) (s : State) : (clockEdge r s).regs = r := rfl
@[simp] theorem clockEdge_cfg (r : Regs) (s : State) : (clockEdge r s).cfg = s.cfg := rfl
@[simp] theorem clockEdge_pins (r : Regs) (s : State) : (clockEdge r s).pins = nextPins s := rfl
@[simp] theorem clockEdge_env (r : Regs) (s : State) : (clockEdge r s).env = s.env.tail := rfl
@[simp] theorem clockEdge_edges (r : Regs) (s : State) : (clockEdge r s).edges = s.edges + 1 := rfl
@[simp] theorem clockEdge_nodes (r : Regs) (s : State) :
    (clockEdge r s).nodes = nodesOf s.cfg r (nextPins s) (s.edges + 1) := rfl

@[simp] theorem enter_cursor (s : State) (k : StateId) : (enter s k).cursor = k := rfl
@[simp] theorem enter_holdCnt (s : State) (k : StateId) : (enter s k).holdCnt = holdField (tableRow s k) := rfl
@[simp] theorem countDown_cursor (r : Regs) : (countDown r).cursor = r.cursor := rfl
@[simp] theorem countDown_holdCnt (r : Regs) : (countDown r).holdCnt = r.holdCnt - 1 := rfl
@[simp] theorem takeConfigFault_eq (r : Regs) : takeConfigFault r = r := rfl

@[simp] theorem resetState_regs (c : Cfg) : (resetState c).regs = resetRegs c 0 := rfl
@[simp] theorem resetState_cfg (c : Cfg) : (resetState c).cfg = c := rfl
@[simp] theorem resetState_env (c : Cfg) : (resetState c).env = [] := rfl
@[simp] theorem resetState_edges (c : Cfg) : (resetState c).edges = 0 := rfl
@[simp] theorem resetState_nodes (c : Cfg) :
    (resetState c).nodes = nodesOf c (resetRegs c 0) (resetState c).pins 0 := rfl

end Sys2Proof.Machine
end

