-- ==== Sys2Proof/Laws/Ops.lean ====
section
/-! SUPPORT. What the shared operations do, said once: reads of the table, the control word and the
operation it selects, the clock edge of a row, one step, and a run of steps. -/

namespace Sys2Proof.Machine

/-- A read inside the table. -/
theorem memReadTable_of_lt {c : Cfg} {k : StateId} (h : k.toNat < c.nStates) (e : Nat) :
    memReadTable c e k = romRow c k.toNat := by
  simp [memReadTable, h]

theorem tableRow_of_lt {s : State} {k : StateId} (h : k.toNat < s.cfg.nStates) :
    tableRow s k = romRow s.cfg k.toNat := memReadTable_of_lt h s.edges

theorem enter_of_lt {s : State} {k : StateId} (h : k.toNat < s.cfg.nStates) :
    enter s k = ⟨k, dwell s.cfg k⟩ := by
  simp [enter, dwell, tableRow_of_lt h]

theorem nxtNow_of_lt {s : State} (h : s.regs.cursor.toNat < s.cfg.nStates) :
    nxtNow s = delta s.cfg s.regs.cursor (codeNow s) := by
  simp [nxtNow, lookup, delta, entry, memReadTable_of_lt h]

/-- In a valid table every entry of every row names a row (45_table_validation.md R150). -/
theorem entry_lt_of_valid {c : Cfg} (h : tableValid c = true) {s i : Nat} (hs : s < c.nStates) (hi : i < 8) :
    (entry c s i).toNat < c.nStates := by
  simp only [tableValid, List.all_eq_true, List.mem_range, decide_eq_true_eq] at h
  exact h s hs i hi

theorem delta_lt_of_valid {c : Cfg} (h : tableValid c = true) {s : StateId} (hs : s.toNat < c.nStates) (i : Code) :
    (delta c s i).toNat < c.nStates := entry_lt_of_valid h hs i.isLt

/-- The registers an edge leaves, for each condition of R110; exhaustive. -/
theorem edgeRegs_cases (n : StateId) (s : State) :
    (s.pins.rst = true ∧ edgeRegs n s = enter s Config.initState) ∨
    (s.pins.rst = false ∧ tableOk s = false ∧ edgeRegs n s = s.regs) ∨
    (s.pins.rst = false ∧ tableOk s = true ∧ expire s.regs s.pins = true ∧ edgeRegs n s = enter s n) ∨
    (s.pins.rst = false ∧ tableOk s = true ∧ expire s.regs s.pins = false ∧ s.pins.tick = true ∧
      edgeRegs n s = countDown s.regs) ∨
    (s.pins.rst = false ∧ tableOk s = true ∧ expire s.regs s.pins = false ∧ s.pins.tick = false ∧
      edgeRegs n s = s.regs) := by
  unfold edgeRegs
  cases s.pins.rst <;> cases tableOk s <;> cases expire s.regs s.pins <;> cases s.pins.tick <;> simp

/-- What an edge does to the registers depends on the registers, the build, the pins and the count of edges
alone, not on the later inputs nor on the nodes. -/
theorem edgeRegs_congr {s s' : State} (hr : s'.regs = s.regs) (hc : s'.cfg = s.cfg) (hp : s'.pins = s.pins)
    (he : s'.edges = s.edges) : edgeRegs (nxtNow s') s' = edgeRegs (nxtNow s) s := by
  obtain ⟨r, c, p, v, e, n⟩ := s
  obtain ⟨r', c', p', v', e', n'⟩ := s'
  simp only at hr hc hp he
  subst hr hc hp he
  rfl

/-- When the hold expires at an edge (41_hold_timer.md R92). -/
theorem expire_iff (r : Regs) (p : Pins) :
    expire r p = true ↔ r.holdCnt = 0 ∨ (r.holdCnt = 1 ∧ p.tick = true) := by
  simp only [expire, holdZero, holdOne, Bool.or_eq_true, Bool.and_eq_true, beq_iff_eq]

/-- When it does not. -/
theorem expire_eq_false_iff (r : Regs) (p : Pins) :
    expire r p = false ↔ r.holdCnt ≠ 0 ∧ (r.holdCnt = 1 → p.tick = false) := by
  rw [← Bool.not_eq_true, expire_iff]
  simp only [not_or, not_and, Bool.not_eq_true, ne_eq]

/-- The registers at a RESET edge, whatever else is true there (43_sequencer.md R112). -/
theorem edgeRegs_of_rst {s : State} (h : s.pins.rst = true) (n : StateId) :
    edgeRegs n s = enter s Config.initState := by
  rw [edgeRegs, if_pos h]

/-- The registers at a REFUSE edge. -/
theorem edgeRegs_of_invalid {s : State} (h : s.pins.rst = false) (hv : tableValid s.cfg = false) (n : StateId) :
    edgeRegs n s = s.regs := by
  simp [edgeRegs, h, tableOk, hv]

/-- The registers at an ADVANCE edge. -/
theorem edgeRegs_of_expire {s : State} (h : s.pins.rst = false) (hv : tableValid s.cfg = true)
    (he : expire s.regs s.pins = true) (n : StateId) : edgeRegs n s = enter s n := by
  simp [edgeRegs, h, tableOk, hv, he]

/-- The registers at a COUNT edge. -/
theorem edgeRegs_of_tick {s : State} (h : s.pins.rst = false) (hv : tableValid s.cfg = true)
    (he : expire s.regs s.pins = false) (ht : s.pins.tick = true) (n : StateId) :
    edgeRegs n s = countDown s.regs := by
  simp [edgeRegs, h, tableOk, hv, he, ht]

/-- The registers at an IDLE edge. -/
theorem edgeRegs_of_no_tick {s : State} (h : s.pins.rst = false) (hv : tableValid s.cfg = true)
    (he : expire s.regs s.pins = false) (ht : s.pins.tick = false) (n : StateId) : edgeRegs n s = s.regs := by
  simp [edgeRegs, h, tableOk, hv, he, ht]

/-- Every clock edge has the frame of a clock edge. -/
theorem edgeFrame_clockEdge (r : Regs) (s : State) : edgeFrame s (clockEdge r s) :=
  ⟨rfl, fun _ => rfl, rfl, rfl, rfl, rfl⟩

/-- Which operation each vector of conditions selects (30_encoding.md R66). -/
theorem decodeCtl_bits (rst ok z o t : Bool) :
    decodeCtl (BitVec.ofBool rst ++ BitVec.ofBool ok ++ BitVec.ofBool z ++ BitVec.ofBool o ++ BitVec.ofBool t) =
      if rst then .reset else if !ok then .refuse else if z then .advanceZ
      else if o && t then .advanceT else if t then .count else .idle := by
  revert rst ok z o t
  decide

/-- Which operation an edge performs, in a state. -/
theorem decodeCtl_ctlNow (s : State) :
    decodeCtl (ctlNow s) =
      if s.pins.rst then .reset else if !tableValid s.cfg then .refuse else if holdZero s.regs then .advanceZ
      else if holdOne s.regs && s.pins.tick then .advanceT else if s.pins.tick then .count else .idle := by
  rw [ctlNow, ctlWord, decodeCtl_bits]

/-- The operation the control word selects is the one of the priority order: R66 and R110 agree. -/
theorem exec_decodeCtl (s : State) :
    exec (decodeCtl (ctlNow s)) s = .next (clockEdge (edgeRegs (nxtNow s) s) s) := by
  rw [ctlNow, ctlWord, decodeCtl_bits]
  unfold edgeRegs expire tableOk
  cases s.pins.rst <;> cases tableValid s.cfg <;> cases holdZero s.regs <;> cases holdOne s.regs <;>
    cases s.pins.tick <;> rfl

/-- One step, whatever the state: one clock edge, with the registers of R110. -/
theorem step_eq (s : State) : step s = .next (clockEdge (edgeRegs (nxtNow s) s) s) := exec_decodeCtl s

/-- An instruction of format `ROW48` is executed as one edge of its row. -/
theorem exec_of_rowOf {i : Instr} {r : Row} (h : rowOf i = some r) (s : State) : exec i s = .next (rowEdge r s) := by
  cases i <;> simp only [rowOf, Option.some.injEq, reduceCtorEq] at h <;> subst h <;> rfl

/-- Of the row in execution an edge reads the successors alone (notes/assumptions/24). -/
theorem rowEdge_congr {r r' : Row} (h : r.next = r'.next) (s : State) : rowEdge r s = rowEdge r' s := by
  rw [rowEdge, rowEdge, h]

/-- The edge of the row that stands at the cursor is the step's edge. -/
theorem rowEdge_tableRow (s : State) :
    rowEdge (rowFields (tableRow s s.regs.cursor)) s = clockEdge (edgeRegs (nxtNow s) s) s := by
  simp only [rowEdge, successor_rowFields]
  rfl

/-- A run of one step more of any machine whose step answers a next state. -/
theorem run_succ_of_next (M : Host.Core) (n : Nat) {s t : M.State} (h : M.step s = .next t) :
    M.run (n + 1) s = M.run n t := by
  rw [Host.Core.run.eq_def]
  simp only [h]

/-- A run of one step more: the first step and then the rest. -/
theorem runFor_succ (n : Nat) (s : State) :
    runFor (n + 1) s = runFor n (clockEdge (edgeRegs (nxtNow s) s) s) :=
  run_succ_of_next Sys2Proof.core n (step_eq s)

@[simp] theorem runFor_zero (s : State) : runFor 0 s = .next s := rfl

end Sys2Proof.Machine
end

