-- ==== Sys2Proof/Laws/PerInstr.lean ====
section
/-! SUPPORT. Statements made of every instruction: how many bytes each format has (30_encoding.md R68), and
that an instruction's format is row, control or neither exactly as its fields say. -/

namespace Sys2Proof.Laws.EncodedLength

open Sys2Proof.Machine

/-- The bytes of a format: six for a row word, one for a control word, none for a combinational operation. -/
def bytesOfFormat : Format → Nat
  | .row48 => 6
  | .ctl5 => 1
  | .comb => 0

/-- An instruction is encoded in as many bytes as its format has. -/
def Statement (i : Instr) : Prop := (encode i).length = bytesOfFormat i.format

theorem row (r : Row) : Statement (.row r) := rfl
theorem goWest : Statement .goWest := rfl
theorem waitWest : Statement .waitWest := rfl
theorem goSouth (a b c : StateId) : Statement (.goSouth a b c) := rfl
theorem waitSouth : Statement .waitSouth := rfl
theorem goPed (a b c : StateId) : Statement (.goPed a b c) := rfl
theorem pedFlashOff1 : Statement .pedFlashOff1 := rfl
theorem pedFlashOn1 : Statement .pedFlashOn1 := rfl
theorem pedFlashOff2 : Statement .pedFlashOff2 := rfl
theorem pedFlashOn2 : Statement .pedFlashOn2 := rfl
theorem reset : Statement .reset := rfl
theorem refuse : Statement .refuse := rfl
theorem advanceZ : Statement .advanceZ := rfl
theorem advanceT : Statement .advanceT := rfl
theorem count : Statement .count := rfl
theorem idle : Statement .idle := rfl
theorem emitMain : Statement .emitMain := rfl
theorem emitPed : Statement .emitPed := rfl
theorem sample : Statement .sample := rfl
theorem next : Statement .next := rfl
theorem validate : Statement .validate := rfl

end Sys2Proof.Laws.EncodedLength
end

