-- ==== Sys2Proof/Laws/Rom.lean ====
section
/-! SUPPORT. The ROM of a table: each row reads as the word stored there, so a table's ROM is a faithful
picture of its rows. -/

namespace Sys2Proof.Machine.Memory

/-- A row reads as the word written to it, and every other row as before. -/
theorem readRow_writeRow {m : Memory} (h : m.wf = true) (k j : Nat) (w : RowWord) :
    (m.writeRow k w).readRow j = if j = k then w else m.readRow j := by
  by_cases hj : j = k
  · subst hj
    have hb : ∀ i, (hi : i < 6) →
        (m.writeRow j w).read (6 * j + i) = (rowBytes w)[i]'(by simpa [rowBytes] using hi) := by
      intro i hi
      rw [writeRow, read_writeBytes _ _ _ h, dif_pos ⟨by omega, by simp only [rowBytes, List.length_cons, List.length_nil]; omega⟩]
      congr 1
      omega
    have h0 := hb 0 (by omega)
    simp only [readRow, hb 5 (by omega), hb 4 (by omega), hb 3 (by omega), hb 2 (by omega), hb 1 (by omega), if_true]
    rw [show 6 * j = 6 * j + 0 from rfl, h0]
    exact append_bytes w
  · have hb : ∀ i, i < 6 → (m.writeRow k w).read (6 * j + i) = m.read (6 * j + i) := by
      intro i hi
      rw [writeRow, read_writeBytes _ _ _ h, dif_neg]
      simp only [rowBytes, List.length_cons, List.length_nil]
      omega
    have h0 := hb 0 (by omega)
    simp only [Nat.add_zero] at h0
    simp only [readRow, hb 5 (by omega), hb 4 (by omega), hb 3 (by omega), hb 2 (by omega), hb 1 (by omega), h0, hj,
      if_false]

/-- A run of rows, read back. -/
theorem readRow_writeRows : ∀ (ws : List RowWord) {m : Memory} (k j : Nat), m.wf = true →
    (m.writeRows k ws).readRow j = if h : k ≤ j ∧ j - k < ws.length then ws[j - k]'h.2 else m.readRow j
  | [], _, _, _, _ => by simp [writeRows]
  | w :: ws, m, k, j, h => by
    rw [writeRows, readRow_writeRows ws (k + 1) j (wf_writeRow h k w), readRow_writeRow h k j w]
    by_cases h1 : k + 1 ≤ j ∧ j - (k + 1) < ws.length
    · have h2 : k ≤ j ∧ j - k < (w :: ws).length := by simp only [List.length_cons]; omega
      have h3 : j - k = j - (k + 1) + 1 := by omega
      rw [dif_pos h1, dif_pos h2]
      simp only [h3, List.getElem_cons_succ]
    · by_cases h2 : j = k
      · subst h2
        simp
      · have h3 : ¬ (k ≤ j ∧ j - k < (w :: ws).length) := by simp only [List.length_cons]; omega
        simp only [h1, h2, h3, dite_false, if_false]

/-- Row `j` of a table's ROM is the table's word `j`. -/
theorem readRow_ofRows (ws : List RowWord) (j : Nat) (h : j < ws.length) : (ofRows ws).readRow j = ws[j] := by
  rw [ofRows, readRow_writeRows ws 0 j rfl, dif_pos ⟨Nat.zero_le j, by simpa using h⟩]
  simp

end Sys2Proof.Machine.Memory

namespace Sys2Proof.Machine

/-- Row `k` of the reference table, for any choice of its `OPEN` entries. -/
theorem romRow_refCfg (o : Config.OpenEntries) (k : Nat) (h : k < 9) :
    romRow (refCfg o) k = rowWord ((refRows o)[k]'(by simpa [refRows] using h)) := by
  rw [romRow, refCfg, Memory.readRow_ofRows _ k (by simpa [refRows] using h)]
  simp

/-- An entry of the reference table is the successor its row lists (44_state_table.md R130). -/
theorem entry_refCfg (o : Config.OpenEntries) (k : Nat) (h : k < 9) (i : Code) :
    entry (refCfg o) k i.toNat = successor ((refRows o)[k]'(by simpa [refRows] using h)).next i := by
  rw [entry, romRow_refCfg o k h, ← successor_rowFields, rowFields_rowWord]

end Sys2Proof.Machine
end

