-- ==== Sys2Proof/Tests/Slice0.lean ====
section
/-! SUPPORT. The tests of this model, and the witnesses of the statements' hypotheses. Every expected value is
one that the spec prints (95_test_vectors.md, cited by its number, or a rule) or is calculated by hand from a rule. -/

namespace Sys2Proof.Tests

open Sys2Proof Sys2Proof.Machine

-- One test at a time: tests checked side by side would each hold a thread of their own.
set_option Elab.async false

/-! ### Small states -/

/-- The reference table with the default entries. -/
def refT : Cfg := refCfg ⟨3, 3, 3, 4, 4, 4⟩

/-- The table of program P4 (holds 2, 0, 1). -/
def p4T : Cfg := ⟨Memory.ofRows [0x11101110024C, 0x222222220054, 0x220022000161], 3, 8⟩

/-- The table of program P5, which is invalid. -/
def p5T : Cfg := ⟨Memory.ofRows [0x11111100054C, 0xF22222220554, 0x000002920561], 3, 8⟩

/-- A table of one row, on the narrowest port. -/
def oneRow (w : RowWord) : Cfg := ⟨Memory.ofRows [w], 1, 3⟩

/-- A table with the row of one state replaced. -/
def withRow (k : Nat) (w : RowWord) (c : Cfg) : Cfg := { c with rom := c.rom.writeRow k w }

/-- A settled state before an edge: table, cursor, hold counter, the pins, and the pins of later edges. -/
def before (c : Cfg) (cur : StateId) (hold : BitVec 8) (p : Pins) (later : List Pins := []) : State :=
  ⟨⟨cur, hold⟩, c, p, later, 0, nodesOf c ⟨cur, hold⟩ p 0⟩

/-- The registers after a step: cursor and hold counter. -/
def regsAfter (o : Host.Outcome State Fault Refusal) : Option (StateId × BitVec 8) :=
  match o with
  | .next t => some (t.regs.cursor, t.regs.holdCnt)
  | _ => none

/-- The lamps after a step. -/
def lampsAfter (o : Host.Outcome State Fault Refusal) : Option (BitVec 6 × BitVec 2) :=
  match o with
  | .next t => some (t.nodes.mainOut, t.nodes.pedOut)
  | _ => none

/-- What VALIDATE reports: `table_ok`, `cfg_fault`, `cfg_cause`. -/
def verdict (c : Cfg) : Option (Bool × Bool × BitVec 2) :=
  match exec .validate { before c 0 0 ⟨false, false, 0⟩ with nodes := ⟨0, 0, false, 0, false, 0, 0⟩ } with
  | .next t => some (t.nodes.tableOk, t.nodes.cfgFault, t.nodes.cfgCause)
  | _ => none

/-- No reset, a tick, and a level on the port. -/
def tk (i : Nat) : Pins := ⟨false, true, i⟩

/-- No reset, no tick, and a level on the port. -/
def no (i : Nat) : Pins := ⟨false, false, i⟩

/-! ### Well-formedness: each check refuses a term -/

theorem test_wf_row_named : (Instr.row (rowFields 0x11111100054C)).wf = false := by decide
theorem test_wf_row_named_default : (Instr.row (rowFields 0x333332320561)).wf = false := by decide
theorem test_wf_goSouth_gs5 : (Instr.goSouth 4 3 3).wf = false := by decide
theorem test_wf_goSouth_gs6 : (Instr.goSouth 3 1 3).wf = false := by decide
theorem test_wf_goSouth_gs7 : (Instr.goSouth 3 3 0xF).wf = false := by decide
theorem test_wf_goPed_gp5 : (Instr.goPed 3 4 4).wf = false := by decide
theorem test_wf_goPed_gp6 : (Instr.goPed 4 6 4).wf = false := by decide
theorem test_wf_goPed_gp7 : (Instr.goPed 4 4 0).wf = false := by decide
theorem test_wf_accepts : (Instr.goSouth 2 3 2).wf = true ∧ (Instr.goPed 5 4 5).wf = true ∧
    (Instr.row (rowFields 0x11101110024C)).wf = true ∧ Instr.count.wf = true := by decide

/-! ### Decoding: words written out from the spec's encodings -/

/-- E1: the nine words of the reference table, bit 47 first, each its own instruction. -/
theorem test_decode_rows :
    decodeRow 0b000100010001000100010001000000000000010101001100 = .goWest ∧
    decodeRow 0b001000100010001000100010001000100000010101010100 = .waitWest ∧
    decodeRow 0b001100110011001100110010001100100000010101100001 = .goSouth 3 3 3 ∧
    decodeRow 0b010001000100010001000100010001000000010101100010 = .waitSouth ∧
    decodeRow 0b010001000100010001010101010101000000010110100100 = .goPed 4 4 4 ∧
    decodeRow 0b011001100110011001100110011001100000010100100100 = .pedFlashOff1 ∧
    decodeRow 0b011101110111011101110111011101110000010101100100 = .pedFlashOn1 ∧
    decodeRow 0b100010001000100010001000100010000000010100100100 = .pedFlashOff2 ∧
    decodeRow 0b000000000000000000000000000000000000010101100100 = .pedFlashOn2 := by decide

/-- R140: an `OPEN` entry at its other legal value; at any other value the word is a generic row. -/
theorem test_decode_open_entries :
    decodeRow 0x323332320561 = .goSouth 3 2 3 ∧ decodeRow 0x4454555405A4 = .goPed 5 4 4 ∧
    decodeRow 0x3F3332320561 = .row ⟨0b100001, 0b01, 5, ⟨2, 3, 2, 3, 3, 3, 0xF, 3⟩⟩ := by decide

/-- R60 and P4's row A: a generic row, each nibble in its field. -/
theorem test_decode_generic_row :
    decodeRow 0x11101110024C = .row ⟨0b001100, 0b01, 2, ⟨0, 1, 1, 1, 0, 1, 1, 1⟩⟩ ∧
    decodeRow 0x87654321FFA4 = .row ⟨0b100100, 0b10, 255, ⟨1, 2, 3, 4, 5, 6, 7, 8⟩⟩ := by decide

/-- E4: all 32 control words. -/
theorem test_ctl_table :
    (List.range 32).map (fun n => decodeCtl (BitVec.ofNat 5 n)) =
      List.replicate 8 .refuse ++
      [.idle, .count, .idle, .advanceT, .advanceZ, .advanceZ, .advanceZ, .advanceZ] ++
      List.replicate 16 .reset := by decide

/-- R44, R68: bytes: a row least significant byte first, a control word in one byte, and what is neither. -/
theorem test_decode_bytes :
    decode [0x61, 0x05, 0x32, 0x32, 0x33, 0x33] = .ok (.goSouth 3 3 3) ∧
    decode [0xA4, 0x05, 0x54, 0x55, 0x44, 0x44] = .ok (.goPed 4 4 4) ∧
    decode [0x1F] = .ok .reset ∧ decode [0x0A] = .ok .idle ∧
    decode [0x20] = .error .ctlHighBits ∧ decode [] = .error .selectedByNoBits ∧
    decode [0, 0, 0, 0, 0] = .error .badLength ∧ decode [0, 0, 0, 0, 0, 0, 0] = .error .badLength := by decide

/-- The words of opcode_table.json, at the widths the table gives them; no bits select a combinational
operation (R72). -/
theorem test_decode_table_word :
    decodeTableWord 48 0x222222220554 = some .waitWest ∧ decodeTableWord 48 0x666666660524 = some .pedFlashOff1 ∧
    decodeTableWord 8 0x10 = some .reset ∧ decodeTableWord 8 0x00 = some .refuse ∧
    decodeTableWord 8 0x0C = some .advanceZ ∧ decodeTableWord 8 0x0B = some .advanceT ∧
    decodeTableWord 8 0x09 = some .count ∧ decodeTableWord 8 0x08 = some .idle ∧
    decodeTableWord 5 0x0B = some .advanceT ∧ decodeTableWord 0 0 = none ∧ decodeTableWord 56 0 = none := by decide

/-- The encoder writes the bytes of E1 and the match column of R66. -/
theorem test_encode :
    encode .waitSouth = [0x62, 0x05, 0x44, 0x44, 0x44, 0x44] ∧
    encode (.goPed 4 4 4) = [0xA4, 0x05, 0x54, 0x55, 0x44, 0x44] ∧
    encode .advanceT = [0x0B] ∧ encode .sample = [] := by decide

/-! ### The table ROM -/

/-- E2: the ROM image of the reference table, 54 bytes. -/
theorem test_rom_image :
    refT.rom.image 9 =
      [0x4C, 0x05, 0x00, 0x11, 0x11, 0x11, 0x54, 0x05, 0x22, 0x22, 0x22, 0x22, 0x61, 0x05, 0x32, 0x32, 0x33, 0x33] ++
      [0x62, 0x05, 0x44, 0x44, 0x44, 0x44, 0xA4, 0x05, 0x54, 0x55, 0x44, 0x44, 0x24, 0x05, 0x66, 0x66, 0x66, 0x66] ++
      [0x64, 0x05, 0x77, 0x77, 0x77, 0x77, 0x24, 0x05, 0x88, 0x88, 0x88, 0x88, 0x64, 0x05, 0x00, 0x00, 0x00, 0x00] := by
  decide +kernel

/-- R140: another choice of the `OPEN` entries gives the row of it. -/
theorem test_rom_open_entries : romRow (refCfg ⟨3, 3, 2, 4, 4, 4⟩) 2 = 0x233332320561 := by decide +kernel

/-- The canonical form: an erased byte (`0xFF`) is not listed, and is what an unlisted byte reads as. -/
theorem test_rom_erased :
    Memory.ofRows [0xFFFFFFFF054C] = [(0, 0x4C), (1, 0x05)] ∧
    (Memory.ofRows [0xFFFFFFFF054C]).readRow 0 = 0xFFFFFFFF054C ∧
    (Memory.ofRows []).readRow 3 = 0xFFFFFFFFFFFF := by decide +kernel

/-! ### The instructions, one step each -/

/-- V2: COUNT and IDLE, at WaitWest. -/
theorem test_count_and_idle :
    regsAfter (step (before refT 1 5 (tk 0))) = some (1, 4) ∧ regsAfter (step (before refT 1 2 (tk 0))) = some (1, 1) ∧
    regsAfter (step (before refT 1 255 (tk 0))) = some (1, 254) ∧
    regsAfter (step (before refT 1 5 (no 0))) = some (1, 5) ∧ regsAfter (step (before refT 1 1 (no 0))) = some (1, 1) := by
  decide +kernel

/-- V2: both ADVANCE operations, at WaitWest; P4 edge 9: a hold of zero, left by the masked code 0. -/
theorem test_advance :
    regsAfter (step (before refT 1 1 (tk 0))) = some (2, 5) ∧ regsAfter (step (before refT 1 0 (no 0))) = some (2, 5) ∧
    regsAfter (step (before refT 1 0 (tk 0))) = some (2, 5) ∧
    regsAfter (step (before p4T 1 0 (tk 0x08))) = some (2, 1) := by decide +kernel

/-- V3: when the input is read, and which bits of it. -/
theorem test_sampling :
    regsAfter (step (before refT 0 3 (tk 0x07))) = some (0, 2) ∧ regsAfter (step (before refT 0 1 (no 0x07))) = some (0, 1) ∧
    regsAfter (step (before refT 0 1 (tk 0x07))) = some (1, 5) ∧ regsAfter (step (before refT 0 1 (tk 0xF8))) = some (0, 5) ∧
    regsAfter (step (before refT 0 1 (tk 0xF9))) = some (0, 5) ∧ regsAfter (step (before refT 0 1 (tk 0x0A))) = some (1, 5) := by
  decide +kernel

/-- V5: the successors and the lamps after. -/
theorem test_advance_lamps :
    lampsAfter (step (before refT 0 1 (tk 0x04))) = some (0x14, 0b01) ∧
    lampsAfter (step (before refT 2 1 (tk 0x01))) = some (0x22, 0b01) ∧
    lampsAfter (step (before refT 3 1 (tk 0x07))) = some (0x24, 0b10) ∧
    lampsAfter (step (before refT 4 1 (tk 0x01))) = some (0x24, 0b00) ∧
    lampsAfter (step (before refT 8 1 (tk 0x06))) = some (0x0C, 0b01) := by decide +kernel

/-- V6: RESET wins over a tick, an expiring hold and a running hold. -/
theorem test_reset :
    regsAfter (step (before refT 6 2 ⟨true, false, 0⟩)) = some (0, 5) ∧
    regsAfter (step (before refT 4 1 ⟨true, true, 1⟩)) = some (0, 5) ∧
    lampsAfter (step (before refT 0 3 ⟨true, true, 7⟩)) = some (0x0C, 0b01) := by decide +kernel

/-- R180: the state right after reset. -/
theorem test_reset_state :
    State.reset.regs = ⟨0, 5⟩ ∧ State.reset.nodes.mainOut = 0x0C ∧ State.reset.nodes.pedOut = 0b01 ∧
    State.reset.nodes.cfgFault = false ∧ State.reset.nodes.cfgCause = 0 := by decide +kernel

/-- P5: under the configuration fault a tick does nothing, a reset gives the same registers, the lamps are dark. -/
theorem test_refuse :
    regsAfter (step (before p5T 0 5 (tk 2))) = some (0, 5) ∧ lampsAfter (step (before p5T 0 5 (tk 2))) = some (0, 0) ∧
    regsAfter (step (before p5T 0 5 ⟨true, true, 2⟩)) = some (0, 5) ∧
    lampsAfter (step (before p5T 0 5 ⟨true, true, 2⟩)) = some (0, 0) := by decide +kernel

/-- V7: VALIDATE. -/
theorem test_validate :
    verdict refT = some (true, false, 0b00) ∧ verdict (oneRow 0x00000000054C) = some (true, false, 0b00) ∧
    verdict (oneRow 0x11111111054C) = some (false, true, 0b10) ∧
    verdict (oneRow 0xFFFFFFFF054C) = some (false, true, 0b01) := by decide +kernel

/-- V7, the tables of nine rows, and P5's. -/
theorem test_validate_tables :
    verdict (withRow 8 0x000090000564 refT) = some (false, true, 0b10) ∧
    verdict (withRow 2 0x3F3332320561 refT) = some (false, true, 0b01) ∧
    verdict p5T = some (false, true, 0b11) ∧ verdict p4T = some (true, false, 0b00) ∧
    verdict (withRow 0 0x111111000549 refT) = some (true, false, 0b00) := by decide +kernel

/-- E3: the sampled code. -/
theorem test_sample_codes :
    ([0x00, 0x01, 0x02, 0x04, 0x06, 0x07, 0x08, 0xF8, 0xFA, 0xFD, 0xFF].map fun i => sampleCode refT (tk i)) =
      [0, 1, 2, 4, 6, 7, 0, 0, 2, 5, 7] := by decide +kernel

/-- V1, V4: EMIT_MAIN, EMIT_PED, SAMPLE and NEXT, each driving its own node only, at GoPed with code 3. -/
theorem test_combinational :
    ∀ s, s = { before refT 4 5 (tk 3) with nodes := ⟨0, 0, false, 0, false, 0, 0⟩ } →
      exec .emitMain s = .next { s with nodes := ⟨0x24, 0, false, 0, false, 0, 0⟩ } ∧
      exec .emitPed s = .next { s with nodes := ⟨0, 0b10, false, 0, false, 0, 0⟩ } ∧
      exec .sample s = .next { s with nodes := ⟨0, 0, false, 0, false, 3, 0⟩ } ∧
      exec .next s = .next { s with nodes := ⟨0, 0, false, 0, false, 0, 5⟩ } := by
  intro s h
  subst h
  have a : mainMux refT 0 4 = 0x24 := by decide +kernel
  have b : pedMux refT 0 4 = 0b10 := by decide +kernel
  have c : sampleCode refT (tk 3) = 3 := by decide
  have d : lookup refT 0 4 3 = 5 := by decide +kernel
  refine ⟨?_, ?_, ?_, ?_⟩
  · simp only [exec, execEmitMain, driveMain, before, a]
  · simp only [exec, execEmitPed, drivePed, before, b]
  · simp only [exec, execSample, driveCode, codeNow, before, c]
  · simp only [exec, execNext, driveNxt, nxtNow, codeNow, before, c, d]

/-- R114: the rows as instructions: GoWest with code 2, GoSouth with code 0, GoPed with a chosen entry, the
flash chain with any code; and one tick inside a hold. -/
theorem test_rows :
    regsAfter (exec .goWest (before refT 0 1 (tk 2))) = some (1, 5) ∧
    regsAfter (exec .waitWest (before refT 1 1 (tk 7))) = some (2, 5) ∧
    regsAfter (exec (.goSouth 3 2 3) (before refT 2 1 (tk 6))) = some (2, 5) ∧
    regsAfter (exec .waitSouth (before refT 3 1 (tk 0))) = some (4, 5) ∧
    regsAfter (exec (.goPed 4 4 5) (before refT 4 1 (tk 7))) = some (5, 5) ∧
    regsAfter (exec .pedFlashOff1 (before refT 5 1 (tk 1))) = some (6, 5) := by decide +kernel

/-- R136 to R139, and a generic row before its hold has expired. -/
theorem test_more_rows :
    regsAfter (exec .pedFlashOn1 (before refT 6 1 (tk 1))) = some (7, 5) ∧
    regsAfter (exec .pedFlashOff2 (before refT 7 1 (tk 4))) = some (8, 5) ∧
    regsAfter (exec .pedFlashOn2 (before refT 8 1 (tk 6))) = some (0, 5) ∧
    regsAfter (exec (.row (rowFields 0x11101110024C)) (before p4T 0 2 (tk 3))) = some (0, 1) ∧
    regsAfter (exec (.row (rowFields 0x11101110024C)) (before p4T 0 1 (tk 2))) = some (1, 0) := by decide +kernel

/-! ### Where the host puts an instruction -/

/-- A placed row word stands at the cursor, at the start of its hold; a placed control word is the one formed. -/
theorem test_place :
    (romRow ((before p4T 1 0 (no 0)).withFetchWord 48 0x220022000161).cfg 1 = 0x220022000161) ∧
    regsAfter (step ((before p4T 1 0 (no 0)).withFetchWord 48 0x220022000161)) = some (0, 2) ∧
    ctlNow ((before p4T 1 0 (no 0)).withFetchWord 5 0x0B) = 0x0B ∧
    ctlNow ((before p4T 1 0 (no 0)).withFetchWord 5 0x00) = 0x00 ∧
    ctlNow ((before p5T 1 0 (no 0)).withFetchWord 5 0x09) = 0x09 ∧
    ctlNow ((before p5T 1 1 (tk 0)).withFetchWord 8 0x1C) = 0x1C := by decide +kernel

/-! ### The `.fsm` notation -/

/-- P4's text and its row words. -/
theorem test_fsm_p4 :
    Fsm.assemble
      ("state A main=ew:G,ns:R ped=DONT hold=2 next=[A,B,B,B,A,B,B,B]\n" ++
       "state B main=ew:Y,ns:R ped=DONT hold=0 next=*C\n" ++
       "state C main=ew:R,ns:G ped=DONT hold=1 next=[A,A,C,C,A,A,C,C]\n").toList =
      .ok [0x11101110024C, 0x222222220054, 0x220022000161] := by decide +kernel

/-- The forms of P5's text: no entry, a raw dangling value, and comments. -/
theorem test_fsm_p5 :
    Fsm.assemble "# P5\nstate Y main=20 ped=0b01 hold=5 next=[Y,Y,Y,#9,Y,Y,Y,-] # dangles".toList =
      .ok [0xF00090000554] := by decide +kernel

/-- R71: `hold=` left out, and the worked example's first line. -/
theorem test_fsm_default_hold :
    Fsm.assemble
      ("state GoWest main=ew:G,ns:R ped=DONT next=[GoWest,GoWest,WaitWest,WaitWest,WaitWest,WaitWest,WaitWest,WaitWest]\n" ++
       "state WaitWest main=20 ped=1 next=*#2").toList =
      .ok [0x11111100054C, 0x222222220554] := by decide +kernel

/-- R70: what is refused: an unknown name, a name used twice, a value out of range, no line. -/
theorem test_fsm_refuses :
    Fsm.assemble "state A main=0 ped=0 hold=1 next=*B".toList = .error (.unknownName 0) ∧
    Fsm.assemble "state A main=0 ped=0 next=*A\nstate A main=0 ped=0 next=*A".toList = .error (.sameName 1) ∧
    Fsm.assemble "state A main=64 ped=0 next=*A".toList = .error (.badLine 0) ∧
    Fsm.assemble "# nothing".toList = .error .noStates := by decide +kernel

/-! ### Witnesses: a concrete input that meets the hypotheses of each statement -/

theorem valid_refT : tableValid refT = true := by decide +kernel
theorem valid_p4T : tableValid p4T = true := by decide +kernel
theorem invalid_p5T : tableValid p5T = false := by decide +kernel

theorem witness_ResetStateIsGoWestWithFullHold :
    1 ≤ (before (oneRow 0x00000000054C) 0 3 ⟨true, true, 7⟩).cfg.nStates ∧
    (before (oneRow 0x00000000054C) 0 3 ⟨true, true, 7⟩).pins.rst = true := ⟨le_refl 1, rfl⟩

theorem witness_ResetLoadsInitStateAndItsHold :
    1 ≤ (before refT 6 2 ⟨true, false, 0⟩).cfg.nStates ∧ (before refT 6 2 ⟨true, false, 0⟩).pins.rst = true := by
  decide

theorem witness_RefuseFreezesTheRegisters :
    (before p5T 0 5 (tk 2)).pins.rst = false ∧ tableValid (before p5T 0 5 (tk 2)).cfg = false := ⟨rfl, invalid_p5T⟩

theorem witness_InvalidTableIsRefusedForEver :
    1 ≤ (before p5T 0 5 (tk 2)).cfg.nStates ∧ tableValid (before p5T 0 5 (tk 2)).cfg = false ∧
    justEntered (before p5T 0 5 (tk 2)) 0 ∧ 1 ≤ 8 := ⟨by decide, invalid_p5T, by unfold justEntered; decide +kernel, by decide⟩

theorem witness_InvalidTableBlanksTheLamps :
    tableValid (before p5T 0 5 (tk 2)).cfg = false ∧ settled (before p5T 0 5 (tk 2)) := ⟨invalid_p5T, rfl⟩

theorem witness_NoInstructionChangesTheBuild :
    (∃ t, exec .count (before refT 1 2 (tk 0)) = .next t) ∧ settled (before refT 1 2 (tk 0)) := ⟨⟨_, rfl⟩, rfl⟩

theorem witness_CountTakesOneFromTheHold :
    2 ≤ (before refT 8 2 (tk 0)).regs.holdCnt.toNat ∧
    (before refT 8 2 (tk 0)).regs.cursor.toNat < (before refT 8 2 (tk 0)).cfg.nStates ∧
    settled (before refT 8 2 (tk 0)) ∧ (before refT 8 2 (tk 0)).pins.rst = false ∧
    tableValid (before refT 8 2 (tk 0)).cfg = true ∧ (before refT 8 2 (tk 0)).pins.tick = true :=
  ⟨by decide, by decide, rfl, rfl, valid_refT, rfl⟩

theorem witness_IdleChangesNoRegister :
    (before refT 1 1 (no 0)).pins.rst = false ∧ tableValid (before refT 1 1 (no 0)).cfg = true ∧
    (before refT 1 1 (no 0)).regs.holdCnt ≠ 0 ∧ (before refT 1 1 (no 0)).pins.tick = false :=
  ⟨rfl, valid_refT, by decide, rfl⟩

theorem witness_CounterNeverWraps :
    decodeCtl (ctlNow (before refT 1 2 (tk 0))) = .count ∧ decodeCtl (ctlNow (before refT 1 255 (tk 0))) = .count := by
  decide +kernel

theorem witness_AdvanceLoadsTheSuccessorAndItsHold :
    tableValid (before refT 8 1 (tk 0)).cfg = true ∧
    (before refT 8 1 (tk 0)).regs.cursor.toNat < (before refT 8 1 (tk 0)).cfg.nStates ∧
    decodeCtl (ctlNow (before refT 8 1 (tk 0))) = .advanceT ∧
    decodeCtl (ctlNow (before p4T 1 0 (no 0))) = .advanceZ := by decide +kernel

theorem witness_ZeroHoldIsLeftAtTheNextEdge :
    tableValid (before p4T 1 0 (no 0)).cfg = true ∧
    (before p4T 1 0 (no 0)).regs.cursor.toNat < (before p4T 1 0 (no 0)).cfg.nStates ∧
    (before p4T 1 0 (no 0)).pins.rst = false ∧ (before p4T 1 0 (no 0)).regs.holdCnt = 0 := by decide +kernel

theorem witness_StepRunsTheRowAtTheCursor :
    (before refT 8 5 (tk 0)).regs.cursor.toNat < (before refT 8 5 (tk 0)).cfg.nStates ∧
    decode ((before refT 8 5 (tk 0)).cfg.rom.bytesFrom (6 * (before refT 8 5 (tk 0)).regs.cursor.toNat) 6) =
      .ok .pedFlashOn2 := by decide +kernel

theorem witness_StepIsTheEdgeFunction :
    1 ≤ (before refT 8 1 (tk 0)).cfg.nStates ∧
    (before refT 8 1 (tk 0)).regs.cursor.toNat < (before refT 8 1 (tk 0)).cfg.nStates := by decide

theorem witness_StepIsTheTickLevelStep :
    tableValid refT = true ∧ (before refT 8 1 (tk 0)).regs.cursor.toNat < refT.nStates ∧
    (∀ k : StateId, k.toNat < refT.nStates → dwell refT k ≠ 0) ∧ (before refT 8 1 (tk 0)).regs.holdCnt ≠ 0 ∧
    (before refT 8 1 (tk 0)).pins.tick = true ∧ (before refT 8 1 (no 0)).pins.tick = false ∧
    (before refT 8 1 (tk 0)).pins.rst = false ∧ (before refT 8 1 (no 0)).pins.rst = false := by
  refine ⟨valid_refT, by decide, ?_, by decide, rfl, rfl, rfl, rfl⟩
  decide +kernel

/-- For each clause in order: RESET, the fault, an expired hold, a tick in the hold, no tick. -/
theorem witness_EveryRowRunsOneEdge :
    rowOf .waitWest = some waitWestRow ∧ (before refT 1 1 ⟨true, true, 0⟩).pins.rst = true ∧
    tableValid (before p5T 1 1 (tk 0)).cfg = false ∧ expire (before refT 1 1 (tk 0)).regs (tk 0) = true ∧
    expire (before refT 1 2 (tk 0)).regs (tk 0) = false ∧ expire (before refT 1 1 (no 0)).regs (no 0) = false ∧
    tableValid refT = true := by decide +kernel

theorem witness_RowEntersItsSuccessor :
    (before refT 8 1 (tk 7)).pins.rst = false ∧ tableValid (before refT 8 1 (tk 7)).cfg = true ∧
    expire (before refT 8 1 (tk 7)).regs (before refT 8 1 (tk 7)).pins = true ∧
    (successor pedFlashOff2Row.next (sampleCode (before refT 8 1 (tk 7)).cfg (before refT 8 1 (tk 7)).pins)).toNat <
      (before refT 8 1 (tk 7)).cfg.nStates := by decide +kernel

/-- The premises of all the rows of the reference table, at codes 1 and 2, where GoWest's two clauses meet. -/
theorem witness_GoWestFollowsItsRow :
    (before refT 0 1 (tk 1)).cfg.nStates = 9 ∧ (before refT 0 1 (tk 1)).pins.rst = false ∧
    tableValid (before refT 0 1 (tk 1)).cfg = true ∧
    expire (before refT 0 1 (tk 1)).regs (before refT 0 1 (tk 1)).pins = true ∧
    sampleCode refT (tk 1) = 1 ∧ sampleCode refT (tk 2) = 2 := by decide +kernel

theorem witness_WaitRowsAlwaysGoOn :
    (before refT 3 0 (no 7)).cfg.nStates = 9 ∧ (before refT 3 0 (no 7)).pins.rst = false ∧
    tableValid (before refT 3 0 (no 7)).cfg = true ∧
    expire (before refT 3 0 (no 7)).regs (before refT 3 0 (no 7)).pins = true := by decide +kernel

/-- With codes 0, 2, 5, 6, 7 and 1, one for each clause of where GoSouth goes. -/
theorem witness_GoSouthFollowsItsRow :
    (before refT 2 1 (tk 5)).cfg.nStates = 9 ∧ (before refT 2 1 (tk 5)).pins.rst = false ∧
    tableValid (before refT 2 1 (tk 5)).cfg = true ∧
    expire (before refT 2 1 (tk 5)).regs (before refT 2 1 (tk 5)).pins = true ∧
    gsLegal 2 = true ∧ gsLegal 3 = true ∧ [0, 2, 5, 6, 7, 1].map (fun i => sampleCode refT (tk i)) = [0, 2, 5, 6, 7, 1] := by
  decide +kernel

theorem witness_GoPedFollowsItsRow :
    (before refT 4 1 (tk 7)).cfg.nStates = 9 ∧ (before refT 4 1 (tk 7)).pins.rst = false ∧
    tableValid (before refT 4 1 (tk 7)).cfg = true ∧
    expire (before refT 4 1 (tk 7)).regs (before refT 4 1 (tk 7)).pins = true ∧
    gpLegal 4 = true ∧ gpLegal 5 = true ∧ [0, 4, 5, 6, 7, 3].map (fun i => sampleCode refT (tk i)) = [0, 4, 5, 6, 7, 3] := by
  decide +kernel

theorem witness_FlashRowsAreAFixedChain :
    (before refT 5 1 (tk 6)).cfg.nStates = 9 ∧ (before refT 5 1 (tk 6)).pins.rst = false ∧
    tableValid (before refT 5 1 (tk 6)).cfg = true ∧
    expire (before refT 5 1 (tk 6)).regs (before refT 5 1 (tk 6)).pins = true := by decide +kernel

theorem witness_EmitMainDrivesTheRowsLamps :
    (before refT 8 5 (no 0)).regs.cursor.toNat < (before refT 8 5 (no 0)).cfg.nStates ∧
    tableValid (before p5T 0xF 5 (no 0)).cfg = false := ⟨by decide, invalid_p5T⟩

theorem witness_EmitPedDrivesTheRowsLamps :
    (before refT 4 5 (no 0)).regs.cursor.toNat < (before refT 4 5 (no 0)).cfg.nStates ∧
    tableValid (before p5T 3 5 (no 0)).cfg = false := ⟨by decide, invalid_p5T⟩

theorem witness_SampleTakesTheLowThreeBits :
    Config.minInW ≤ (before (oneRow 0) 0 0 (no 0xFD)).cfg.inW := by decide

theorem witness_NextLooksUpTheSuccessor :
    (before refT 8 1 (tk 7)).regs.cursor.toNat < (before refT 8 1 (tk 7)).cfg.nStates ∧
    tableValid (before refT 8 1 (tk 7)).cfg = true := ⟨by decide, valid_refT⟩

/-- ValidateJudgesEveryEntry has no hypotheses; this is a table for each side of each of its three tests. -/
theorem witness_ValidateJudgesEveryEntry :
    missing p5T 1 7 = true ∧ dangling p5T 2 1 = true ∧ missing p5T 1 6 = false ∧ dangling p5T 1 7 = false := by
  decide +kernel

theorem witness_CombinationalOperationsAreAlwaysActive :
    Instr.validate.format = .comb ∧ settled (before refT 3 2 (tk 1)) ∧ ∃ t, step (before refT 3 2 (tk 1)) = .next t :=
  ⟨rfl, rfl, _, step_eq _⟩

theorem witness_CauseIsZeroExactlyWithoutFault : refT.nStates ≤ Config.maxStates := by decide

theorem witness_OutputsDependOnTheCursorAlone :
    settled (before refT 8 5 (tk 1)) ∧ settled (before refT 8 1 (no 6)) ∧
    (before refT 8 5 (tk 1)).cfg = (before refT 8 1 (no 6)).cfg ∧
    (before refT 8 5 (tk 1)).regs.cursor = (before refT 8 1 (no 6)).regs.cursor ∧
    (before refT 8 5 (tk 1)).regs.cursor.toNat < (before refT 8 5 (tk 1)).cfg.nStates :=
  ⟨rfl, rfl, rfl, rfl, by decide⟩

/-- A step that keeps the cursor, one that changes it by RESET, and one by ADVANCE. -/
theorem witness_OutputsChangeOnlyAtResetOrAdvance :
    settled (before refT 8 5 (tk 1)) ∧ (before refT 8 5 (tk 1)).regs.cursor.toNat < (before refT 8 5 (tk 1)).cfg.nStates ∧
    regsAfter (step (before refT 8 5 (tk 1))) = some (8, 4) ∧
    regsAfter (step (before refT 8 5 ⟨true, false, 1⟩)) = some (0, 5) ∧
    regsAfter (step (before refT 7 1 (tk 1))) = some (8, 5) := by
  refine ⟨rfl, by decide, ?_⟩
  decide +kernel

theorem witness_InputIsReadOnlyAtAdvance :
    advances (before refT 0 1 (no 7)) = false ∧ advances (before refT 0 2 (tk 7)) = false := by decide +kernel

theorem witness_UpperPortBitsAreIgnored :
    Config.minInW ≤ (before (oneRow 0) 0 0 (tk 0)).cfg.inW ∧ (0xFA : Nat) % 8 = 0x02 % 8 := by decide

/-- P3's edges 9 and 10: the level at edge 9 is replaced. -/
theorem witness_UnsampledInputNeverMatters :
    (inputs (before refT 0 1 (no 6) [tk 0xFA]))[0]? = some (no 6) ∧
    inputs (before refT 0 1 (no 0) [tk 0xFA]) = (inputs (before refT 0 1 (no 6) [tk 0xFA])).set 0 { no 6 with inPort := 0 } ∧
    (before refT 0 1 (no 0) [tk 0xFA]).regs = (before refT 0 1 (no 6) [tk 0xFA]).regs ∧
    (before refT 0 1 (no 0) [tk 0xFA]).cfg = (before refT 0 1 (no 6) [tk 0xFA]).cfg ∧
    (before refT 0 1 (no 0) [tk 0xFA]).edges = (before refT 0 1 (no 6) [tk 0xFA]).edges ∧
    runFor 0 (before refT 0 1 (no 6) [tk 0xFA]) = .next (before refT 0 1 (no 6) [tk 0xFA]) ∧
    advances (before refT 0 1 (no 6) [tk 0xFA]) = false := by
  refine ⟨rfl, rfl, rfl, rfl, rfl, rfl, ?_⟩
  decide +kernel

theorem legal_refT : refT.legal = true := by decide +kernel

theorem witness_InvariantHoldsAfterReset : refT.legal = true ∧ (oneRow 0x00000000054C).legal = true ∧
    p5T.legal = true := by decide +kernel

theorem inv_refT : Inv (before refT 4 1 (tk 1)) :=
  ⟨legal_refT, rfl, by decide, by decide +kernel, fun h => absurd valid_refT (by rw [show tableValid refT = false from h]; decide)⟩

theorem witness_StepKeepsTheInvariant :
    Inv (before refT 4 1 (tk 1)) ∧ ∃ t, step (before refT 4 1 (tk 1)) = .next t := ⟨inv_refT, _, step_eq _⟩

/-- A valid table and an invalid one, each from its reset registers. -/
theorem witness_CursorAlwaysNamesARow :
    refT.legal = true ∧ justEntered (before refT 0 5 (tk 0)) 0 ∧ (∃ t, runFor 1 (before refT 0 5 (tk 0)) = .next t) ∧
    p5T.legal = true ∧ justEntered (before p5T 0 5 (tk 2)) 0 ∧ tableValid p5T = false :=
  ⟨legal_refT, by unfold justEntered; decide +kernel, ⟨_, runFor_succ 0 _⟩, by decide +kernel,
    by unfold justEntered; decide +kernel, invalid_p5T⟩

theorem witness_DecodeOfEncode :
    (Instr.goSouth 2 3 2).wf = true ∧ (Instr.goSouth 2 3 2).format ≠ .comb ∧
    (Instr.row (rowFields 0xFFFFFFFFFFFF)).wf = true ∧ (Instr.row (rowFields 0xFFFFFFFFFFFF)).format ≠ .comb ∧
    Instr.idle.wf = true ∧ Instr.idle.format ≠ .comb := by decide

theorem witness_RomImageRoundTrip : 0 < ([0x11101110024C] : List RowWord).length := by decide

theorem witness_RomImageByteOrder : 8 < refT.nStates ∧ 0 < (oneRow 0).nStates := by decide

theorem witness_FsmPseudoForms : Fsm.lamp ['G'] = some 1 ∧ Fsm.lamp ['R'] = some 4 := by decide

theorem witness_ReferenceTableIsValid :
    openLegal ⟨2, 2, 2, 5, 5, 5⟩ = true ∧ openLegal ⟨3, 3, 3, 4, 4, 4⟩ = true ∧ 8 < 9 ∧ 7 < 8 := by decide

theorem witness_ReferenceTableIsSafe : 0 < 9 ∧ 8 < 9 := by decide

theorem witness_LampsAreSafeAtEveryInstant :
    Inv (before refT 4 1 (tk 1)) ∧ tableSafe (before refT 4 1 (tk 1)).cfg = true ∧
    ∃ t, runFor 1 (before refT 4 1 (tk 1)) = .next t := by
  refine ⟨inv_refT, ?_, _, runFor_succ 0 _⟩
  decide +kernel

theorem witness_FlashSequenceIsFixed : (1 : Code) = 1 ∨ (1 : Code) = 2 ∨ (1 : Code) = 3 := by decide

theorem witness_NoDemandRests : (4 : StateId) = 0 ∨ (4 : StateId) = 2 ∨ (4 : StateId) = 4 := by decide

theorem witness_TransitionsFollowTheRing : openLegal ⟨2, 3, 2, 5, 4, 5⟩ = true ∧ (8 : StateId).toNat < 9 := by decide

theorem witness_OnlyGoStatesReadTheInput : (0 : StateId).toNat < 9 ∧ (8 : StateId).toNat < 9 := by decide

/-- P4's edges 4 to 9: one cycle of A (hold 2) and one of B (hold 0), then an edge that is left over. -/
theorem witness_EdgesRefineCycles :
    tableValid p4T = true ∧ (0 : StateId).toNat < p4T.nStates ∧
    justEntered (before p4T 0 2 (no 0) [tk 0xF9, no 0, no 2, tk 2, tk 8, no 7]) 0 ∧
    areCycles p4T 0 [([no 0, tk 0xF9, no 0, no 2], tk 2), ([], tk 8)] = true ∧
    inputs (before p4T 0 2 (no 0) [tk 0xF9, no 0, no 2, tk 2, tk 8, no 7]) =
      edgesOf [([no 0, tk 0xF9, no 0, no 2], tk 2), ([], tk 8)] ++ [no 7] :=
  ⟨valid_p4T, by decide, by unfold justEntered; decide +kernel, by decide +kernel, rfl⟩

theorem witness_StateIsShownForItsWholeHold :
    tableValid p4T = true ∧ (0 : StateId).toNat < p4T.nStates ∧
    justEntered (before p4T 0 2 (no 0) [tk 0xF9, no 0, no 2, tk 2, tk 8]) 0 ∧
    settled (before p4T 0 2 (no 0) [tk 0xF9, no 0, no 2, tk 2, tk 8]) ∧
    isCycle (dwell p4T 0) [no 0, tk 0xF9, no 0, no 2] (tk 2) = true ∧
    inputs (before p4T 0 2 (no 0) [tk 0xF9, no 0, no 2, tk 2, tk 8]) = [no 0, tk 0xF9, no 0, no 2] ++ tk 2 :: [tk 8] ∧
    4 ≤ ([no 0, tk 0xF9, no 0, no 2] : List Pins).length :=
  ⟨valid_p4T, by decide, by unfold justEntered; decide +kernel, rfl, by decide +kernel, rfl, by decide⟩

theorem witness_EnoughTicksLeaveTheState :
    tableValid p4T = true ∧ (0 : StateId).toNat < p4T.nStates ∧
    justEntered (before p4T 0 2 (no 0) [tk 0xF9, no 0, tk 2, tk 8]) 0 ∧ dwell p4T 0 ≠ 0 ∧
    noReset [no 0, tk 0xF9, no 0, tk 2] = true ∧ (dwell p4T 0).toNat ≤ ticks [no 0, tk 0xF9, no 0, tk 2] ∧
    inputs (before p4T 0 2 (no 0) [tk 0xF9, no 0, tk 2, tk 8]) = [no 0, tk 0xF9, no 0, tk 2] ++ [tk 8] :=
  ⟨valid_p4T, by decide, by unfold justEntered; decide +kernel, by decide +kernel, rfl, by decide +kernel, rfl⟩

end Sys2Proof.Tests
end

section
/-! PROOFS. The registers after a reset: every edge keeps `regsInv`, so every run does, and the cursor names a row
of the table in every state of a run from the reset registers (10_state.md R21). -/

namespace Sys2Proof.Machine

/-! ### Runs -/

/-- A condition that every edge keeps holds at the end of every run that begins in it. -/
theorem runFor_keeps {P : State → Prop} (hstep : ∀ u, P u → P (clockEdge (edgeRegs (nxtNow u) u) u)) :
    ∀ {n : Nat} {s t : State}, P s → runFor n s = .next t → P t
  | 0, s, t, hs, hrun => by
    rw [runFor_zero, Host.Outcome.next.injEq] at hrun
    exact hrun ▸ hs
  | n + 1, s, t, hs, hrun => by
    rw [runFor_succ] at hrun
    exact runFor_keeps hstep (hstep s hs) hrun

/-- No run changes the build (20_memory.md R43). -/
theorem runFor_cfg {n : Nat} {s t : State} (hrun : runFor n s = .next t) : t.cfg = s.cfg :=
  runFor_keeps (P := fun u => u.cfg = s.cfg) (fun _ hu => hu) rfl hrun

/-! ### The registers after a reset -/

/-- The number of rows of a legal build (00_scope.md R7). -/
theorem nStates_of_legal {c : Cfg} (h : c.legal = true) : 1 ≤ c.nStates ∧ c.nStates ≤ 9 := by
  simp only [Cfg.legal, Bool.and_eq_true, decide_eq_true_eq] at h
  obtain ⟨⟨⟨⟨hlo, hhi⟩, _⟩, _⟩, _⟩ := h
  exact ⟨hlo, hhi⟩

/-- Registers that have just entered a row meet the invariant, where under the configuration fault the row entered is
that of `INIT_STATE`. -/
theorem regsInv_entered {c : Cfg} {k : StateId} (hk : k.toNat < c.nStates)
    (hfault : tableValid c = false → k = Config.initState) : regsInv c ⟨k, dwell c k⟩ :=
  ⟨hk, le_rfl, fun hv => by rw [hfault hv]⟩

/-- A COUNT keeps the invariant where it is performed: in a valid table, at a hold that is not 0. -/
theorem regsInv_countDown {c : Cfg} {r : Regs} (h : regsInv c r) (hv : tableValid c = true)
    (hpos : r.holdCnt ≠ 0) : regsInv c (countDown r) := by
  obtain ⟨hcur, hhold, _⟩ := h
  have hle : (r.holdCnt - 1).toNat ≤ r.holdCnt.toNat := by bv_omega
  exact ⟨hcur, hle.trans hhold, fun hbad => by simp [hv] at hbad⟩

/-- Every edge keeps the invariant of the registers, in the priority order of 43_sequencer.md R110. -/
theorem regsInv_edgeRegs {s : State} (h : regsInv s.cfg s.regs) : regsInv s.cfg (edgeRegs (nxtNow s) s) := by
  have hcur : s.regs.cursor.toNat < s.cfg.nStates := h.1
  obtain ⟨_, he⟩ | ⟨_, _, he⟩ | ⟨_, hv, _, he⟩ | ⟨_, hv, hx, _, he⟩ | ⟨_, _, _, _, he⟩ :=
    edgeRegs_cases (nxtNow s) s <;> rw [he]
  · -- RESET
    have hinit : Config.initState.toNat < s.cfg.nStates := Nat.zero_lt_of_lt hcur
    rw [enter_of_lt hinit]
    exact regsInv_entered hinit fun _ => rfl
  · exact h -- REFUSE
  · -- ADVANCE
    have hnxt : (nxtNow s).toNat < s.cfg.nStates := nxtNow_of_lt hcur ▸ delta_lt_of_valid hv hcur _
    rw [enter_of_lt hnxt]
    exact regsInv_entered hnxt fun hbad => absurd (hv.symm.trans hbad) (by decide)
  · -- COUNT
    obtain ⟨hpos, _⟩ := (expire_eq_false_iff _ _).1 hx
    exact regsInv_countDown h hv hpos
  · exact h -- IDLE

/-- Every run keeps the invariant of the registers. -/
theorem regsInv_runFor {n : Nat} {s t : State} (h : regsInv s.cfg s.regs) (hrun : runFor n s = .next t) :
    regsInv t.cfg t.regs :=
  runFor_keeps (P := fun u => regsInv u.cfg u.regs) (fun _ hu => regsInv_edgeRegs hu) h hrun

/-- The reset registers of a legal build meet the invariant (10_state.md R35). -/
theorem regsInv_of_justEntered_init {s : State} (hlegal : s.cfg.legal = true) (h : justEntered s 0) :
    regsInv s.cfg s.regs := by
  rw [show s.regs = ⟨0, dwell s.cfg 0⟩ from h]
  exact regsInv_entered (nStates_of_legal hlegal).1 fun _ => rfl

/-- Settles O40: the invariant of the registers holds at reset and is kept by every run, and a legal build has at most
nine rows. -/
theorem cursorAlwaysNamesARow : Obligations.CursorAlwaysNamesARow := by
  intro s t n hlegal hreset hrun
  have hcfg : t.cfg = s.cfg := runFor_cfg hrun
  have hinv : regsInv t.cfg t.regs := regsInv_runFor (regsInv_of_justEntered_init hlegal hreset) hrun
  rw [hcfg] at hinv
  obtain ⟨hcur, _, hfault⟩ := hinv
  have hrows : s.cfg.nStates ≤ 9 := (nStates_of_legal hlegal).2
  exact ⟨hcfg, hcur, by omega, fun hv => by rw [hfault hv]; rfl⟩

end Sys2Proof.Machine
end

section
/-! PROOFS. The table ROM (20_memory.md): its image loads back as the same contents (R44, R45), and no instruction
writes it (R43). -/

namespace Sys2Proof.Machine.Memory

/-! ### The ROM image -/

@[simp] theorem length_bytesFrom (m : Memory) : ∀ a n : Nat, (m.bytesFrom a n).length = n
  | _, 0 => rfl
  | a, n + 1 => congrArg (· + 1) (length_bytesFrom m (a + 1) n)

@[simp] theorem length_image (m : Memory) (n : Nat) : (m.image n).length = 6 * n := length_bytesFrom m 0 (6 * n)

/-- Byte `i` of a stretch of the ROM is the byte at the `i`-th address of the stretch. -/
theorem getElem_bytesFrom (m : Memory) : ∀ (a n i : Nat) (h : i < (m.bytesFrom a n).length),
    (m.bytesFrom a n)[i] = m.read (a + i)
  | _, 0, _, h => by simp at h
  | _, _ + 1, 0, _ => rfl
  | a, n + 1, i + 1, h => by
    have ih := getElem_bytesFrom m (a + 1) n i (by simpa using h)
    rwa [Nat.add_right_comm] at ih

/-- Byte `i` of the ROM image is the byte at address `i` (R44). -/
theorem getElem_image (m : Memory) (n i : Nat) (h : i < (m.image n).length) : (m.image n)[i] = m.read i :=
  (getElem_bytesFrom m 0 (6 * n) i h).trans (by rw [Nat.zero_add])

/-- A loaded ROM image reads as the image inside it, and as erased behind it. -/
theorem read_ofImage (bs : List Byte) (x : Nat) :
    (ofImage bs).read x = if h : x < bs.length then bs[x] else erased := by
  rw [ofImage, read_writeBytes bs 0 x rfl]
  simp [read]

/-- Contents in canonical form that hold nothing behind `n` rows are what their image of `n` rows loads. -/
theorem ofImage_image {m : Memory} {n : Nat} (hwf : m.wf = true) (hend : ∀ x, 6 * n ≤ x → m.read x = erased) :
    ofImage (m.image n) = m := by
  refine ext_of_wf (wf_ofImage _) hwf fun x => ?_
  rw [read_ofImage]
  split
  · exact getElem_image m n x _
  · next hx => exact (hend x (by simpa using hx)).symm

/-- Storing rows leaves the bytes behind the last of them as they were. -/
theorem read_writeRows_of_ge : ∀ (ws : List RowWord) {m : Memory} {k x : Nat}, m.wf = true →
    6 * (k + ws.length) ≤ x → (m.writeRows k ws).read x = m.read x
  | [], _, _, _, _, _ => rfl
  | w :: ws, m, k, x, hwf, hx => by
    rw [List.length_cons] at hx
    have hrow : (m.writeRow k w).read x = m.read x := by
      rw [writeRow, read_writeBytes _ _ _ hwf, dif_neg]
      simp only [rowBytes, List.length_cons, List.length_nil]
      omega
    rw [writeRows, read_writeRows_of_ge ws (wf_writeRow hwf k w) (by omega), hrow]

/-- A table's ROM is erased behind its last row. -/
theorem read_ofRows_of_ge {ws : List RowWord} {x : Nat} (h : 6 * ws.length ≤ x) : (ofRows ws).read x = erased :=
  read_writeRows_of_ge ws rfl (by omega)

/-- Settles O44: a table's ROM is canonical and erased behind its rows, so its image loads back as the same ROM, whose
rows are the table's words. -/
theorem romImageRoundTrip : Obligations.RomImageRoundTrip := by
  intro ws
  have himage : ofImage ((ofRows ws).image ws.length) = ofRows ws :=
    ofImage_image (wf_ofRows ws) fun _ => read_ofRows_of_ge
  refine ⟨himage, fun j h => ?_⟩
  rw [himage]
  exact readRow_ofRows ws j h

end Sys2Proof.Machine.Memory

namespace Sys2Proof.Machine

/-! ### Nothing writes the table -/

/-- What an instruction can do: one clock edge, or one drive of the combinational nodes (30_encoding.md R72). -/
theorem exec_cases {i : Instr} {s t : State} (h : exec i s = .next t) :
    (∃ r, t = clockEdge r s) ∨ t = driveMain s ∨ t = drivePed s ∨ t = driveCode s ∨ t = driveNxt s ∨
      t = driveStatus s := by
  cases i <;> cases h
  case emitMain => exact .inr (.inl rfl)
  case emitPed => exact .inr (.inr (.inl rfl))
  case sample => exact .inr (.inr (.inr (.inl rfl)))
  case next => exact .inr (.inr (.inr (.inr (.inl rfl))))
  case validate => exact .inr (.inr (.inr (.inr (.inr rfl))))
  all_goals exact .inl ⟨_, rfl⟩

/-- No instruction changes the build. -/
theorem exec_cfg {i : Instr} {s t : State} (h : exec i s = .next t) : t.cfg = s.cfg := by
  obtain ⟨_, rfl⟩ | rfl | rfl | rfl | rfl | rfl := exec_cases h <;> rfl

/-- In a settled state the fault outputs are those of the build (45_table_validation.md R152). -/
theorem settled_fault {s : State} (h : settled s) :
    s.nodes.cfgFault = cfgFault s.cfg ∧ s.nodes.cfgCause = cfgCause s.cfg := by
  rw [show s.nodes = _ from h]
  exact ⟨rfl, rfl⟩

/-- The fault outputs stay those of the build: an edge and VALIDATE drive them with these, and the other operations do
not drive them. -/
theorem exec_fault {i : Instr} {s t : State} (h : exec i s = .next t) (hs : settled s) :
    t.nodes.cfgFault = cfgFault s.cfg ∧ t.nodes.cfgCause = cfgCause s.cfg := by
  have hbuild := settled_fault hs
  obtain ⟨_, rfl⟩ | rfl | rfl | rfl | rfl | rfl := exec_cases h
  · exact ⟨rfl, rfl⟩ -- a clock edge
  · exact hbuild -- EMIT_MAIN
  · exact hbuild -- EMIT_PED
  · exact hbuild -- SAMPLE
  · exact hbuild -- NEXT
  · exact ⟨rfl, rfl⟩ -- VALIDATE

/-- Settles O7: an instruction is a clock edge or a drive of nodes, and neither touches the build, which alone decides
the fault outputs. -/
theorem noInstructionChangesTheBuild : Obligations.NoInstructionChangesTheBuild := by
  intro i s t h
  have hcfg : t.cfg = s.cfg := exec_cfg h
  refine ⟨hcfg, fun a => by rw [hcfg], fun hs => ?_⟩
  obtain ⟨hfault, hcause⟩ := exec_fault h hs
  obtain ⟨hfault₀, hcause₀⟩ := settled_fault hs
  exact ⟨hfault.trans hfault₀.symm, hcause.trans hcause₀.symm⟩

end Sys2Proof.Machine
end

section
/-! PROOFS. Encodings (30_encoding.md): the bit positions of the fields of a row word (R60) and the input code that
SAMPLE takes from the port (R65). -/

namespace Sys2Proof.Machine

/-! ### The fields of a row word -/

/-- Settles O18: the fields are defined by their bit positions, the successor for a code is the field that the code
selects, and the word of a word's fields is that word. -/
theorem rowWordFields : Obligations.RowWordFields := by
  intro w
  exact ⟨rfl, rfl, rfl, fun i => successor_rowFields w i, rowWord_rowFields w⟩

/-! ### The input code -/

/-- The sampled code is the port modulo 8, where the port has the three bits that SAMPLE reads (00_scope.md R7). -/
theorem sampleCode_toNat {c : Cfg} (h : Config.minInW ≤ c.inW) (p : Pins) :
    (sampleCode c p).toNat = p.inPort % 8 := by
  have hdvd : 2 ^ 3 ∣ 2 ^ c.inW := Nat.pow_dvd_pow 2 h
  calc (sampleCode c p).toNat = p.inPort % 2 ^ c.inW % 2 ^ 3 := by
        rw [sampleCode, memReadInput, BitVec.toNat_setWidth, BitVec.toNat_ofNat]
    _ = p.inPort % 8 := Nat.mod_mod_of_dvd _ hdvd

/-- The low three bits of a number, with their weights (R65). -/
theorem mod_eight_eq_bits (n : Nat) :
    n % 8 = 4 * (n.testBit 2).toNat + 2 * (n.testBit 1).toNat + (n.testBit 0).toNat := by
  rw [Nat.toNat_testBit, Nat.toNat_testBit, Nat.toNat_testBit]
  omega

/-- Settles O28: SAMPLE drives `code` alone, and the code is the port modulo 8, its low three bits. -/
theorem sampleTakesTheLowThreeBits : Obligations.SampleTakesTheLowThreeBits := by
  intro s h
  have hcode : (driveCode s).nodes.code.toNat = s.pins.inPort % 8 := sampleCode_toNat h s.pins
  exact ⟨driveCode s, rfl, hcode, hcode.trans (mod_eight_eq_bits _), rfl⟩

end Sys2Proof.Machine
end

section
/-! PROOFS. The output mux (40_output_mux.md): the lamps are those of the row at the cursor or dark (R80, R81, R83), so
they depend on the cursor and the build alone (R82) and change only where an edge changes the cursor (R84). -/

namespace Sys2Proof.Machine

/-! ### The mux -/

/-- Blanking (R83), for `main_out`. -/
theorem mainMux_of_invalid {c : Cfg} (hv : tableValid c = false) (e : Nat) (k : StateId) : mainMux c e k = 0 := by
  simp [mainMux, hv]

/-- Blanking (R83), for `ped_out`. -/
theorem pedMux_of_invalid {c : Cfg} (hv : tableValid c = false) (e : Nat) (k : StateId) : pedMux c e k = 0 := by
  simp [pedMux, hv]

/-- `main_out` for a cursor in the table, or an invalid table. Elsewhere it is a free value, one for each edge (R42). -/
theorem mainMux_eq {c : Cfg} {k : StateId} (h : k.toNat < c.nStates ∨ tableValid c = false) (e : Nat) :
    mainMux c e k = if tableValid c = true then mainField (romRow c k.toNat) else 0 := by
  obtain hk | hv := h
  · rw [mainMux, memReadTable_of_lt hk]
  · rw [mainMux_of_invalid hv, if_neg (by simp [hv])]

/-- `ped_out` for a cursor in the table, or an invalid table. -/
theorem pedMux_eq {c : Cfg} {k : StateId} (h : k.toNat < c.nStates ∨ tableValid c = false) (e : Nat) :
    pedMux c e k = if tableValid c = true then pedField (romRow c k.toNat) else 0 := by
  obtain hk | hv := h
  · rw [pedMux, memReadTable_of_lt hk]
  · rw [pedMux_of_invalid hv, if_neg (by simp [hv])]

/-- Settles O26: EMIT_MAIN drives `main_out` alone, with the value of the mux. -/
theorem emitMainDrivesTheRowsLamps : Obligations.EmitMainDrivesTheRowsLamps := by
  intro s h
  calc exec .emitMain s
      = .next { s with nodes := { s.nodes with mainOut := mainMux s.cfg s.edges s.regs.cursor } } := rfl
    _ = _ := by rw [mainMux_eq h, mainField]

/-- Settles O27: EMIT_PED drives `ped_out` alone, with the value of the mux. -/
theorem emitPedDrivesTheRowsLamps : Obligations.EmitPedDrivesTheRowsLamps := by
  intro s h
  calc exec .emitPed s
      = .next { s with nodes := { s.nodes with pedOut := pedMux s.cfg s.edges s.regs.cursor } } := rfl
    _ = _ := by rw [pedMux_eq h, pedField]

/-! ### The lamps of a settled state -/

/-- A settled state shows the lamps of the mux (30_encoding.md R72). -/
theorem settled_lamps {s : State} (h : settled s) :
    s.nodes.mainOut = mainMux s.cfg s.edges s.regs.cursor ∧ s.nodes.pedOut = pedMux s.cfg s.edges s.regs.cursor :=
  ⟨congrArg Nodes.mainOut h, congrArg Nodes.pedOut h⟩

/-- Settles O5: a settled state shows the mux, which is blanked. -/
theorem invalidTableBlanksTheLamps : Obligations.InvalidTableBlanksTheLamps := by
  intro s hv hs
  obtain ⟨hmain, hped⟩ := settled_lamps hs
  exact ⟨hmain.trans (mainMux_of_invalid hv _ _), hped.trans (pedMux_of_invalid hv _ _)⟩

/-- Settles O33: inside the table the mux of each state is a function of the build and the cursor. -/
theorem outputsDependOnTheCursorAlone : Obligations.OutputsDependOnTheCursorAlone := by
  intro s s' hs hs' hcfg hcur hlt
  obtain ⟨hmain, hped⟩ := settled_lamps hs
  obtain ⟨hmain', hped'⟩ := settled_lamps hs'
  rw [← hcfg, ← hcur] at hmain' hped'
  constructor
  · rw [hmain, hmain', mainMux_eq (.inl hlt), mainMux_eq (.inl hlt)]
  · rw [hped, hped', pedMux_eq (.inl hlt), pedMux_eq (.inl hlt)]

/-! ### When the lamps change -/

/-- An edge that changes the cursor is a RESET edge from a cursor other than `INIT_STATE`, or an ADVANCE edge to another
state (43_sequencer.md R110). -/
theorem edgeRegs_cursor_ne {s : State} {n : StateId} (h : (edgeRegs n s).cursor ≠ s.regs.cursor) :
    (s.pins.rst = true ∧ s.regs.cursor ≠ Config.initState) ∨ (advances s = true ∧ n ≠ s.regs.cursor) := by
  obtain ⟨hr, he⟩ | ⟨_, _, he⟩ | ⟨hr, hv, hx, he⟩ | ⟨_, _, _, _, he⟩ | ⟨_, _, _, _, he⟩ := edgeRegs_cases n s <;>
    rw [he] at h
  · exact .inl ⟨hr, Ne.symm h⟩ -- RESET
  · exact absurd rfl h -- REFUSE
  · exact .inr ⟨by simp [advances, hr, hv, hx], h⟩ -- ADVANCE
  · exact absurd rfl h -- COUNT
  · exact absurd rfl h -- IDLE

/-- Settles O34: a step leaves a settled state of the same build, so with the cursor kept it shows the same lamps
(R82); and the edges that change the cursor are those of `edgeRegs_cursor_ne`. -/
theorem outputsChangeOnlyAtResetOrAdvance : Obligations.OutputsChangeOnlyAtResetOrAdvance := by
  intro s hs hlt
  refine ⟨_, step_eq s, fun hcur => ?_, fun hcur => ?_⟩
  · exact outputsDependOnTheCursorAlone _ s rfl hs rfl hcur (hcur ▸ hlt)
  · rw [clockEdge_regs] at hcur
    have hedge := edgeRegs_cursor_ne hcur
    rwa [nxtNow_of_lt hlt] at hedge

end Sys2Proof.Machine
end

section
/-! PROOFS. The next-state decoder (42_next_state_decoder.md): what NEXT drives on `nxt` (R102). -/

namespace Sys2Proof.Machine

/-- In a valid table the successor looked up in a row of the table is a row of the table (R102). -/
theorem nxtNow_lt_of_valid {s : State} (hv : tableValid s.cfg = true) (h : s.regs.cursor.toNat < s.cfg.nStates) :
    (nxtNow s).toNat < s.cfg.nStates := by
  rw [nxtNow_of_lt h]
  exact delta_lt_of_valid hv h (codeNow s)

/-- Settles O29: NEXT drives `nxt` alone, with the successor in the row at the cursor for the sampled code, which a
valid table keeps in the table. -/
theorem nextLooksUpTheSuccessor : Obligations.NextLooksUpTheSuccessor := by
  intro s h
  have hnxt : (driveNxt s).nodes.nxt = delta s.cfg s.regs.cursor (codeNow s) := nxtNow_of_lt h
  exact ⟨driveNxt s, rfl, hnxt, fun hv => nxtNow_lt_of_valid hv h, rfl⟩

end Sys2Proof.Machine
end

section
/-! PROOFS. The sequencer (43_sequencer.md): one step is the step function of level E, and the output ports show the
outputs of the state it leaves (R110). -/

namespace Sys2Proof.Machine

/-! ### The registers of an edge -/

/-- A table with a row has the row of `INIT_STATE`, which RESET enters (R112). -/
theorem initState_lt_of_lt {c : Cfg} {k : StateId} (h : k.toNat < c.nStates) :
    Config.initState.toNat < c.nStates := Nat.zero_lt_of_lt h

/-- The step function of level E (R110) in the words of the model: when the hold expires (R92), the row entered with its
hold (R90, R103), the count (R91). -/
theorem edgeStep_eq (c : Cfg) (r : Regs) (p : Pins) :
    edgeStep c r p =
      if p.rst = true then ⟨Config.initState, dwell c Config.initState⟩
      else if tableValid c = false then r
      else if expire r p = true then
        ⟨delta c r.cursor (sampleCode c p), dwell c (delta c r.cursor (sampleCode c p))⟩
      else if p.tick = true then countDown r
      else r := by
  simp only [expire_iff]
  rfl

/-- The priority order of the model's edge is the step function of level E, wherever the cursor names a row: the rows
that RESET and ADVANCE enter are then read inside the table. -/
theorem edgeRegs_eq_edgeStep {s : State} (h : s.regs.cursor.toNat < s.cfg.nStates) :
    edgeRegs (nxtNow s) s = edgeStep s.cfg s.regs s.pins := by
  have htable : tableValid s.cfg = tableOk s := rfl
  rw [edgeStep_eq, htable]
  obtain ⟨hr, he⟩ | ⟨hr, hv, he⟩ | ⟨hr, hv, hx, he⟩ | ⟨hr, hv, hx, ht, he⟩ | ⟨hr, hv, hx, ht, he⟩ :=
    edgeRegs_cases (nxtNow s) s <;> rw [he]
  · -- RESET
    rw [enter_of_lt (initState_lt_of_lt h), if_pos hr]
  · simp [hr, hv] -- REFUSE
  · -- ADVANCE
    rw [enter_of_lt (nxtNow_lt_of_valid hv h), nxtNow_of_lt h, codeNow]
    simp [hr, hv, hx]
  · simp [hr, hv, hx, ht] -- COUNT
  · simp [hr, hv, hx, ht] -- IDLE

/-- An edge leaves the cursor in the table (10_state.md R21). -/
theorem edgeRegs_cursor_lt {s : State} (h : s.regs.cursor.toNat < s.cfg.nStates) :
    (edgeRegs (nxtNow s) s).cursor.toNat < s.cfg.nStates := by
  obtain ⟨_, he⟩ | ⟨_, _, he⟩ | ⟨_, hv, _, he⟩ | ⟨_, _, _, _, he⟩ | ⟨_, _, _, _, he⟩ :=
    edgeRegs_cases (nxtNow s) s <;> rw [he]
  · exact initState_lt_of_lt h -- RESET
  · exact h -- REFUSE
  · exact nxtNow_lt_of_valid hv h -- ADVANCE
  · exact h -- COUNT
  · exact h -- IDLE

/-! ### The outputs of a state -/

/-- The output ports of a settled state show the outputs of the state, where the cursor names a row. -/
theorem portsFollow_of_settled {s : State} (hs : settled s) (h : s.regs.cursor.toNat < s.cfg.nStates) :
    portsFollow s := by
  obtain ⟨hmain, hped⟩ := settled_lamps hs
  obtain ⟨hfault, hcause⟩ := settled_fault hs
  exact ⟨hmain.trans (mainMux_eq (.inl h) _), hped.trans (pedMux_eq (.inl h) _), hfault, hcause⟩

/-- Settles O16: the step is a clock edge with the registers of level E, and it leaves a settled state with the cursor
in the table, whose ports show its outputs. That the build has a row follows from the cursor naming one. -/
theorem stepIsTheEdgeFunction : Obligations.StepIsTheEdgeFunction := by
  intro s _ hcur
  have hframe : edgeFrame s (clockEdge (edgeRegs (nxtNow s) s) s) := edgeFrame_clockEdge _ s
  exact ⟨_, step_eq s, edgeRegs_eq_edgeStep hcur, hframe, portsFollow_of_settled rfl (edgeRegs_cursor_lt hcur)⟩

end Sys2Proof.Machine
end

section
/-! PROOFS. The reference table (44_state_table.md R130 to R147), for every choice of its `OPEN` entries: the
transitions of its rows, read off `refRows`, follow the ring of the nine states; its lamps and holds depend on none of
the entries. -/

namespace Sys2Proof.Machine

/-! ### Tables without a missing or dangling entry -/

/-- `TableValid(T)`, over the rows and codes of the table (45_table_validation.md R150). -/
theorem tableValid_iff (c : Cfg) :
    tableValid c = true ↔ ∀ k i : Nat, k < c.nStates → i < 8 → (entry c k i).toNat < c.nStates := by
  simp only [tableValid, List.all_eq_true, List.mem_range, decide_eq_true_eq]
  exact ⟨fun h k i hk hi => h k hk i hi, fun h k hk i hi => h k i hk hi⟩

/-- A condition that no entry of the table satisfies. -/
theorem anyEntry_eq_false_iff (c : Cfg) (p : Nat → Nat → Bool) :
    anyEntry c p = false ↔ ∀ k i : Nat, k < c.nStates → i < 8 → p k i = false := by
  simp only [anyEntry, List.any_eq_false, List.mem_range, Bool.not_eq_true]
  exact ⟨fun h k i hk hi => h k hk i hi, fun h k hk i hi => h k i hk hi⟩

/-- An entry that names a row is not dangling. -/
theorem dangling_of_lt {c : Cfg} {k i : Nat} (h : (entry c k i).toNat < c.nStates) : dangling c k i = false := by
  simp [dangling, Nat.not_le.mpr h]

/-- An entry that names a row is not missing, where `0xF` is no row index. -/
theorem missing_of_lt {c : Cfg} (hn : c.nStates ≤ Config.maxStates) {k i : Nat}
    (h : (entry c k i).toNat < c.nStates) : missing c k i = false := by
  have hn : c.nStates ≤ 9 := hn
  rw [missing, beq_eq_false_iff_ne]
  intro he
  rw [he, show (0xF : StateId).toNat = 15 from rfl] at h
  omega

/-- A valid table has no cause of a configuration fault (R152, R161). -/
theorem cfgCause_of_valid {c : Cfg} (hn : c.nStates ≤ Config.maxStates) (hv : tableValid c = true) :
    cfgCause c = 0 := by
  rw [tableValid_iff] at hv
  have hdangling : anyEntry c (dangling c) = false :=
    (anyEntry_eq_false_iff c _).2 fun k i hk hi => dangling_of_lt (hv k i hk hi)
  have hmissing : anyEntry c (missing c) = false :=
    (anyEntry_eq_false_iff c _).2 fun k i hk hi => missing_of_lt hn (hv k i hk hi)
  rw [cfgCause, hdangling, hmissing]
  rfl

/-- An entry of the table is the successor of its row for its code (43_sequencer.md R115). -/
theorem delta_ofNat (c : Cfg) {k i : Nat} (hk : k < 16) (hi : i < 8) :
    delta c (BitVec.ofNat 4 k) (BitVec.ofNat 3 i) = entry c k i := by
  rw [delta, BitVec.toNat_ofNat, BitVec.toNat_ofNat, Nat.mod_eq_of_lt hk, Nat.mod_eq_of_lt hi]

/-! ### The ring of the nine states -/

/-- The state after a state on the ring that R146 names: `(s + 1) mod 9`. -/
def ringNext (s : StateId) : StateId := if s = 8 then 0 else s + 1

theorem toNat_ringNext : ∀ {s : StateId}, s.toNat < 9 → (ringNext s).toNat = (s.toNat + 1) % 9 := by decide

theorem ringNext_ne : ∀ s : StateId, ringNext s ≠ s := by decide

/-- The three "go" states GoWest, GoSouth and GoPed (R147). -/
abbrev IsGo (s : StateId) : Prop := s = 0 ∨ s = 2 ∨ s = 4

/-- The six states between the "go" states. -/
abbrev IsBetween (s : StateId) : Prop := s = 1 ∨ s = 3 ∨ s = 5 ∨ s = 6 ∨ s = 7 ∨ s = 8

theorem isGo_or_isBetween : ∀ {s : StateId}, s.toNat < 9 → IsGo s ∨ IsBetween s := by decide

/-! ### The transitions of the reference table -/

/-- Eight equal successors, for any code (42_next_state_decoder.md R105). -/
@[simp] theorem successor_all (n : StateId) (i : Code) : successor (Successors.all n) i = n := by
  unfold successor
  split <;> rfl

/-- The successor in the reference table is the one its row lists. -/
theorem delta_refCfg (o : Config.OpenEntries) {s : StateId} (h : s.toNat < 9) (i : Code) :
    delta (refCfg o) s i = successor ((refRows o)[s.toNat]'h).next i := entry_refCfg o s.toNat h i

/-- Rows 1, 3 and 5 to 8 go on whatever the code (R132, R134, R136 to R139). -/
theorem delta_refCfg_of_between (o : Config.OpenEntries) {s : StateId} (h : IsBetween s) (i : Code) :
    delta (refCfg o) s i = ringNext s := by
  obtain rfl | rfl | rfl | rfl | rfl | rfl := h <;>
    exact (delta_refCfg o (by decide) i).trans (successor_all _ i)

/-- Without demand the "go" states stay (R131, R133, R135). -/
theorem delta_refCfg_go_zero (o : Config.OpenEntries) {s : StateId} (h : IsGo s) : delta (refCfg o) s 0 = s := by
  obtain rfl | rfl | rfl := h <;> exact delta_refCfg o (by decide) 0

/-- With a demand from both roads and no pedestrian the "go" states go on (R131, R133, R135). -/
theorem delta_refCfg_go_three (o : Config.OpenEntries) {s : StateId} (h : IsGo s) :
    delta (refCfg o) s 3 = ringNext s := by
  obtain rfl | rfl | rfl := h <;> exact delta_refCfg o (by decide) 3

/-- GoPed goes on with a vehicle demand and no pedestrian (R135). -/
theorem delta_refCfg_goPed (o : Config.OpenEntries) {i : Code} (h : i = 1 ∨ i = 2 ∨ i = 3) :
    delta (refCfg o) 4 i = 5 := by
  obtain rfl | rfl | rfl := h <;> exact delta_refCfg o (by decide) _

/-- What holds of all eight successor fields holds of the successor for any code. -/
theorem successor_of_fields {P : StateId → Prop} {n : Successors}
    (h : P n.n0 ∧ P n.n1 ∧ P n.n2 ∧ P n.n3 ∧ P n.n4 ∧ P n.n5 ∧ P n.n6 ∧ P n.n7) (i : Code) : P (successor n i) := by
  obtain ⟨h0, h1, h2, h3, h4, h5, h6, h7⟩ := h
  unfold successor
  split <;> assumption

/-- The legal choices of the `OPEN` entries (R140). -/
theorem openLegal_iff (o : Config.OpenEntries) :
    openLegal o = true ↔
      (o.gs5 = 2 ∨ o.gs5 = 3) ∧ (o.gs6 = 2 ∨ o.gs6 = 3) ∧ (o.gs7 = 2 ∨ o.gs7 = 3) ∧
        (o.gp5 = 4 ∨ o.gp5 = 5) ∧ (o.gp6 = 4 ∨ o.gp6 = 5) ∧ (o.gp7 = 4 ∨ o.gp7 = 5) := by
  simp only [openLegal, gsLegal, gpLegal, Bool.and_eq_true, Bool.or_eq_true, beq_iff_eq, and_assoc]

/-- The "go" states stay or go on, for every code: where an `OPEN` entry says so, as R140 allows. -/
theorem delta_refCfg_of_go {o : Config.OpenEntries} (ho : openLegal o = true) {s : StateId} (h : IsGo s) (i : Code) :
    delta (refCfg o) s i = s ∨ delta (refCfg o) s i = ringNext s := by
  obtain ⟨h5, h6, h7, g5, g6, g7⟩ := (openLegal_iff o).1 ho
  obtain rfl | rfl | rfl := h <;> rw [delta_refCfg o (by decide)]
  · exact successor_of_fields (n := goWestRow.next) (P := fun x => x = 0 ∨ x = 1) (by decide) i
  · exact successor_of_fields (n := (goSouthRow o.gs5 o.gs6 o.gs7).next) (P := fun x => x = 2 ∨ x = 3)
      ⟨.inl rfl, .inr rfl, .inl rfl, .inr rfl, .inr rfl, h5, h6, h7⟩ i
  · exact successor_of_fields (n := (goPedRow o.gp5 o.gp6 o.gp7).next) (P := fun x => x = 4 ∨ x = 5)
      ⟨.inl rfl, .inr rfl, .inr rfl, .inr rfl, .inl rfl, g5, g6, g7⟩ i

/-- Every transition stays or goes to the next state of the ring (R146). -/
theorem delta_refCfg_ring {o : Config.OpenEntries} (ho : openLegal o = true) {s : StateId} (h : s.toNat < 9)
    (i : Code) : delta (refCfg o) s i = s ∨ delta (refCfg o) s i = ringNext s := by
  obtain hgo | hbetween := isGo_or_isBetween h
  · exact delta_refCfg_of_go ho hgo i
  · exact .inr (delta_refCfg_of_between o hbetween i)

/-- Settles O52: the ring, by the rows that read the input and those that do not; the latter never stay. -/
theorem transitionsFollowTheRing : Obligations.TransitionsFollowTheRing := by
  intro o s i ho hs
  have hring : ∀ t, t = ringNext s → t.toNat = (s.toNat + 1) % 9 := fun _ ht => ht ▸ toNat_ringNext hs
  refine ⟨(delta_refCfg_ring ho hs i).imp_right (hring _), fun hstay => ?_⟩
  obtain hgo | hbetween := isGo_or_isBetween hs
  · exact hgo
  · exact absurd ((delta_refCfg_of_between o hbetween i).symm.trans hstay) (ringNext_ne s)

/-- Settles O53: the "go" states stay with code 0 and go on with code 3, the other rows go on with every code. -/
theorem onlyGoStatesReadTheInput : Obligations.OnlyGoStatesReadTheInput := by
  intro o s hs
  constructor
  · rintro ⟨i, j, hij⟩
    obtain hgo | hbetween := isGo_or_isBetween hs
    · exact hgo
    · rw [delta_refCfg_of_between o hbetween i, delta_refCfg_of_between o hbetween j] at hij
      exact absurd rfl hij
  · intro hgo
    refine ⟨3, 0, ?_⟩
    rw [delta_refCfg_go_three o hgo, delta_refCfg_go_zero o hgo]
    exact ringNext_ne s

/-- Settles O51, by induction on the number of cycles: each of them leads back to the same state. -/
theorem noDemandRests : Obligations.NoDemandRests := by
  intro o k n hgo
  induction n with
  | zero => rfl
  | succ n ih => rw [List.replicate_succ, afterSamples, delta_refCfg_go_zero o hgo, ih]

/-- Settles O47: the table is closed since each of its transitions stays on the ring, and so it is valid and has no
cause of a fault. -/
theorem referenceTableIsValid : Obligations.ReferenceTableIsValid := by
  intro o ho
  have hclosed : ∀ k i : Nat, k < 9 → i < 8 → (entry (refCfg o) k i).toNat < 9 := by
    intro k i hk hi
    have hs : (BitVec.ofNat 4 k).toNat < 9 := by rw [BitVec.toNat_ofNat]; omega
    rw [← delta_ofNat (refCfg o) (by omega) hi]
    obtain h | h := delta_refCfg_ring ho hs (BitVec.ofNat 3 i) <;> rw [h]
    · exact hs
    · rw [toNat_ringNext hs]
      exact Nat.mod_lt _ (by decide)
  have hvalid : tableValid (refCfg o) = true := (tableValid_iff (refCfg o)).2 hclosed
  exact ⟨hclosed, hvalid, by rw [cfgFault, hvalid]; rfl, cfgCause_of_valid (le_refl 9) hvalid⟩

/-! ### The lamps and the holds of the reference table -/

/-- The lamps of the rows, row 0 first (R131 to R139), read off one table: no `OPEN` entry is among them. -/
def refLamps : List (BitVec 6 × BitVec 2) := (refRows {}).map fun r => (r.main, r.ped)

theorem rowFields_refCfg (o : Config.OpenEntries) {k : Nat} (h : k < 9) :
    rowFields (romRow (refCfg o) k) = (refRows o)[k]'h :=
  (congrArg rowFields (romRow_refCfg o k h)).trans (rowFields_rowWord _)

theorem refRows_hold (o : Config.OpenEntries) : ∀ r ∈ refRows o, r.hold = 5 := by
  simp [refRows, goWestRow, waitWestRow, goSouthRow, waitSouthRow, goPedRow, pedFlashOff1Row, pedFlashOn1Row,
    pedFlashOff2Row, pedFlashOn2Row]

/-- The lamps of row `k` of the reference table, as the fields of its word. -/
theorem lamps_refCfg (o : Config.OpenEntries) {k : Nat} (h : k < 9) :
    (mainField (romRow (refCfg o) k), pedField (romRow (refCfg o) k)) = refLamps[k]'h := by
  calc (mainField (romRow (refCfg o) k), pedField (romRow (refCfg o) k))
      = (((refRows o)[k]'h).main, ((refRows o)[k]'h).ped) :=
        congrArg (fun r : Row => (r.main, r.ped)) (rowFields_refCfg o h)
    -- the lists of lamps are equal: no `OPEN` entry is a lamp
    _ = refLamps[k]'h := (List.getElem_map (l := refRows o) fun r : Row => (r.main, r.ped)).symm

/-- Every state of the reference table holds five ticks. -/
theorem dwell_refCfg (o : Config.OpenEntries) {s : StateId} (h : s.toNat < 9) : dwell (refCfg o) s = 5 := by
  have hhold : dwell (refCfg o) s = ((refRows o)[s.toNat]'h).hold := congrArg Row.hold (rowFields_refCfg o h)
  exact hhold.trans (refRows_hold o _ (List.getElem_mem _))

/-- The walk lamp, bit 7 of a row word, is the upper bit of its `ped` field. -/
theorem extractLsb'_seven_one (w : RowWord) : w.extractLsb' 7 1 = (w.extractLsb' 6 2).extractLsb' 1 1 := by
  refine BitVec.eq_of_getLsbD_eq fun j hj => ?_
  obtain rfl : j = 0 := by omega
  simp

/-- The lamps of the nine rows are safe (R142, R143). -/
theorem refLamps_safe : ∀ k : Fin 9,
    lampsSafe (refLamps[k]'k.isLt).1 = true ∧ walkExclusive (refLamps[k]'k.isLt).1 (refLamps[k]'k.isLt).2 = true ∧
    (refLamps[k]'k.isLt).1.extractLsb' 0 3 ≠ 0#3 ∧ (refLamps[k]'k.isLt).1.extractLsb' 3 3 ≠ 0#3 ∧
    ((refLamps[k]'k.isLt).2.extractLsb' 1 1 = 1#1 ↔ k.val = 4) := by
  decide

/-- Settles O48: the lamps of a row are its entry of `refLamps`, whose nine pairs are safe. -/
theorem referenceTableIsSafe : Obligations.ReferenceTableIsSafe := by
  intro o k hk
  have hmain : (romRow (refCfg o) k).extractLsb' 0 6 = (refLamps[k]'hk).1 := congrArg Prod.fst (lamps_refCfg o hk)
  have hped : (romRow (refCfg o) k).extractLsb' 6 2 = (refLamps[k]'hk).2 := congrArg Prod.snd (lamps_refCfg o hk)
  have hns : (romRow (refCfg o) k).extractLsb' 0 3 = (refLamps[k]'hk).1.extractLsb' 0 3 := by
    rw [← hmain, BitVec.extractLsb'_extractLsb'_of_le (by decide)]
  have hew : (romRow (refCfg o) k).extractLsb' 3 3 = (refLamps[k]'hk).1.extractLsb' 3 3 := by
    rw [← hmain, BitVec.extractLsb'_extractLsb'_of_le (by decide)]
  rw [hns, hew, extractLsb'_seven_one, hmain, hped]
  exact refLamps_safe ⟨k, hk⟩

/-! ### The flash sequence -/

/-- The states from GoPed with a vehicle demand and no pedestrian: the flash states do not read the input (R144). -/
theorem visited_refCfg_flash (o : Config.OpenEntries) {i : Code} (j1 j2 j3 j4 : Code) (hi : i = 1 ∨ i = 2 ∨ i = 3) :
    visited (refCfg o) 4 [i, j1, j2, j3, j4] = [4, 5, 6, 7, 8, 0] := by
  have h5 : delta (refCfg o) 5 j1 = 6 := delta_refCfg_of_between o (by decide) j1
  have h6 : delta (refCfg o) 6 j2 = 7 := delta_refCfg_of_between o (by decide) j2
  have h7 : delta (refCfg o) 7 j3 = 8 := delta_refCfg_of_between o (by decide) j3
  have h8 : delta (refCfg o) 8 j4 = 0 := delta_refCfg_of_between o (by decide) j4
  simp only [visited, delta_refCfg_goPed o hi, h5, h6, h7, h8]

/-- Settles O50: the states visited, their pedestrian lamps off `refLamps`, and four holds of five ticks. -/
theorem flashSequenceIsFixed : Obligations.FlashSequenceIsFixed := by
  intro o i j1 j2 j3 j4 hi
  have hped : ∀ s : StateId, (h : s.toNat < 9) → (lambda (refCfg o) s).2 = (refLamps[s.toNat]'h).2 :=
    fun s h => congrArg Prod.snd (lamps_refCfg o h)
  have hdwell : ∀ s : StateId, s.toNat < 9 → (dwell (refCfg o) s).toNat = 5 := fun s h => by rw [dwell_refCfg o h]; rfl
  rw [visited_refCfg_flash o j1 j2 j3 j4 hi]
  refine ⟨rfl, ?_, ?_⟩
  · simp only [List.map_cons, List.map_nil]
    rw [hped 4 (by decide), hped 5 (by decide), hped 6 (by decide), hped 7 (by decide), hped 8 (by decide),
      hped 0 (by decide)]
    decide
  · rw [hdwell 5 (by decide), hdwell 6 (by decide), hdwell 7 (by decide), hdwell 8 (by decide)]

end Sys2Proof.Machine
end

section
/-! PROOFS. Reset and hazards (70_reset_and_hazards.md): the registers after a RESET edge and in the reset state of
every build with a row, and the reset state of the reference table (R180). -/

namespace Sys2Proof.Machine

/-! ### Builds with a row -/

/-- A build with a row has the row of `INIT_STATE`. -/
theorem initState_lt_of_row {c : Cfg} (h : 1 ≤ c.nStates) : Config.initState.toNat < c.nStates := h

/-- The reset registers of a build with a row: the hold is read inside the table (10_state.md R35). -/
theorem resetRegs_of_row {c : Cfg} (h : 1 ≤ c.nStates) (e : Nat) :
    resetRegs c e = ⟨Config.initState, dwell c Config.initState⟩ := by
  rw [resetRegs, memReadTable_of_lt (initState_lt_of_row h), dwell]

/-- A RESET edge enters the row of `INIT_STATE` with its whole hold (R180). -/
theorem step_of_rst {s : State} (hrow : 1 ≤ s.cfg.nStates) (hrst : s.pins.rst = true) :
    ∃ t, step s = .next t ∧ t.regs = ⟨Config.initState, dwell s.cfg Config.initState⟩ := by
  refine ⟨_, step_eq s, ?_⟩
  rw [clockEdge_regs, edgeRegs_of_rst hrst, enter_of_lt (initState_lt_of_row hrow)]

/-- The output ports of the reset state show its outputs: its nodes are settled. -/
theorem portsFollow_resetState {c : Cfg} (h : 1 ≤ c.nStates) : portsFollow (resetState c) :=
  portsFollow_of_settled rfl (initState_lt_of_row h)

/-! ### The reference table -/

/-- The reset registers of the reference table: GoWest with five ticks to go. -/
theorem resetState_refCfg_regs (o : Config.OpenEntries) : (resetState (refCfg o)).regs = ⟨0, 5⟩ := by
  rw [resetState_regs, resetRegs_of_row (by decide : 1 ≤ 9), dwell_refCfg o (by decide)]
  rfl

/-- The outputs in the reset state of the reference table, for every legal choice of its `OPEN` entries: the lamps of
row 0, since the table is valid, and no configuration fault (R141). -/
theorem resetState_refCfg_outputs {o : Config.OpenEntries} (ho : openLegal o = true) :
    (resetState (refCfg o)).nodes.mainOut = 0x0C ∧ (resetState (refCfg o)).nodes.pedOut = 0b01 ∧
    (resetState (refCfg o)).nodes.cfgFault = false ∧ (resetState (refCfg o)).nodes.cfgCause = 0 := by
  obtain ⟨_, hvalid, hnofault, hnocause⟩ := referenceTableIsValid o ho
  obtain ⟨hmain, hped, hfault, hcause⟩ := portsFollow_resetState (c := refCfg o) (by decide : 1 ≤ 9)
  have hlamps : lambda (refCfg o) 0 = (0x0C, 0b01) := lamps_refCfg o (by decide : 0 < 9)
  refine ⟨?_, ?_, hfault.trans hnofault, hcause.trans hnocause⟩
  · exact hmain.trans ((if_pos hvalid).trans (congrArg Prod.fst hlamps))
  · exact hped.trans ((if_pos hvalid).trans (congrArg Prod.snd hlamps))

/-- Settles O1: a RESET edge and the reset state read the hold of row 0 inside the table, and row 0 of the reference
table is GoWest. -/
theorem resetStateIsGoWestWithFullHold : Obligations.ResetStateIsGoWestWithFullHold :=
  ⟨fun _ hrow hrst => step_of_rst hrow hrst, fun _ hrow => resetRegs_of_row hrow 0,
    resetState_refCfg_regs _, resetState_refCfg_outputs (by decide)⟩

end Sys2Proof.Machine
end

section
/-! PROOFS. Runs: a run is the iterated clock edge; every step keeps the invariant of the states after reset
(10_state.md R21), an invalid table is refused for ever (45_table_validation.md R153), and a table of safe rows shows
safe lamps at every instant (44_state_table.md R142, R143). -/

namespace Sys2Proof.Machine

/-! ### One step and many -/

/-- The state after the coming edge. -/
def nextState (s : State) : State := clockEdge (edgeRegs (nxtNow s) s) s

theorem step_eq_nextState (s : State) : step s = .next (nextState s) := step_eq s

theorem eq_nextState_of_step {s t : State} (h : step s = .next t) : t = nextState s :=
  (Host.Outcome.next.inj ((step_eq_nextState s).symm.trans h)).symm

@[simp] theorem nextState_regs (s : State) : (nextState s).regs = edgeRegs (nxtNow s) s := rfl
@[simp] theorem nextState_cfg (s : State) : (nextState s).cfg = s.cfg := rfl

theorem settled_nextState (s : State) : settled (nextState s) := rfl

/-- A run is the iterated edge: nothing stops it (60_exceptions.md R166). -/
theorem runFor_eq_iterate : ∀ (n : Nat) (s : State), runFor n s = .next (nextState^[n] s)
  | 0, _ => rfl
  | n + 1, s => (runFor_succ n s).trans (runFor_eq_iterate n (nextState s))

@[simp] theorem iterate_nextState_cfg (n : Nat) (s : State) : (nextState^[n] s).cfg = s.cfg :=
  runFor_cfg (runFor_eq_iterate n s)

/-- Every run keeps settled nodes. -/
theorem settled_iterate (n : Nat) {s : State} (h : settled s) : settled (nextState^[n] s) :=
  runFor_keeps (P := settled) (fun u _ => settled_nextState u) h (runFor_eq_iterate n s)

/-- Every run of at least one step ends in a settled state. -/
theorem settled_iterate_of_pos {n : Nat} (hn : 1 ≤ n) (s : State) : settled (nextState^[n] s) := by
  obtain ⟨m, rfl⟩ : ∃ m, n = m + 1 := ⟨n - 1, by omega⟩
  exact settled_iterate m (settled_nextState s)

/-- Settles O6: every instruction answers a clock edge or a drive of nodes, and a step is an instruction. -/
theorem nothingFaultsOrIsRefused : Obligations.NothingFaultsOrIsRefused :=
  ⟨fun i s => by cases i <;> exact ⟨_, rfl⟩, fun s => ⟨_, step_eq_nextState s⟩⟩

/-! ### The invariant -/

/-- Settles O38: the reset registers of a build with a row have just entered it, and the reset state is settled. -/
theorem invariantHoldsAfterReset : Obligations.InvariantHoldsAfterReset := by
  intro c hlegal
  have hentered : justEntered (resetState c) 0 := resetRegs_of_row (nStates_of_legal hlegal).1 0
  exact ⟨hlegal, rfl, regsInv_of_justEntered_init hlegal hentered⟩

/-- Settles O39: an edge leaves the build, settles the nodes and keeps the invariant of the registers. -/
theorem stepKeepsTheInvariant : Obligations.StepKeepsTheInvariant := by
  rintro s t ⟨hlegal, _, hregs⟩ hstep
  obtain rfl := eq_nextState_of_step hstep
  exact ⟨hlegal, settled_nextState s, regsInv_edgeRegs hregs⟩

/-- Every run keeps the invariant. -/
theorem inv_runFor {n : Nat} {s t : State} (h : Inv s) (hrun : runFor n s = .next t) : Inv t :=
  runFor_keeps (P := Inv) (fun u hu => stepKeepsTheInvariant u _ hu (step_eq u)) h hrun

/-! ### The invalid table -/

/-- In a settled state an invalid table shows dark lamps and the configuration fault. -/
theorem outputs_of_invalid {s : State} (hv : tableValid s.cfg = false) (hs : settled s) :
    s.nodes.mainOut = 0 ∧ s.nodes.pedOut = 0 ∧ s.nodes.cfgFault = true := by
  obtain ⟨hmain, hped⟩ := invalidTableBlanksTheLamps s hv hs
  exact ⟨hmain, hped, by rw [(settled_fault hs).1, cfgFault, hv]; rfl⟩

/-- Under the configuration fault an edge keeps the reset registers: it is REFUSE, or a RESET that loads them again. -/
theorem justEntered_nextState_of_invalid {s : State} (hrow : 1 ≤ s.cfg.nStates) (hv : tableValid s.cfg = false)
    (h : justEntered s 0) : justEntered (nextState s) 0 := by
  rw [justEntered, nextState_regs, nextState_cfg]
  cases hrst : s.pins.rst with
  | true => exact (edgeRegs_of_rst hrst _).trans (enter_of_lt (initState_lt_of_row hrow))
  | false => exact (edgeRegs_of_invalid hrst hv _).trans h

/-- Settles O4: an invariant of runs, that the build is the invalid one and the registers are at reset; after a step the
nodes are settled, and so the outputs are dark. -/
theorem invalidTableIsRefusedForEver : Obligations.InvalidTableIsRefusedForEver := by
  intro s n hrow hv h
  have hrun := runFor_eq_iterate n s
  have hcfg : (nextState^[n] s).cfg = s.cfg := iterate_nextState_cfg n s
  obtain ⟨hregs, _⟩ : justEntered (nextState^[n] s) 0 ∧ (nextState^[n] s).cfg = s.cfg :=
    runFor_keeps (P := fun u => justEntered u 0 ∧ u.cfg = s.cfg)
      (fun _ ⟨hu, hc⟩ => ⟨justEntered_nextState_of_invalid (hc ▸ hrow) (hc ▸ hv) hu, hc⟩) ⟨h, rfl⟩ hrun
  exact ⟨_, hrun, hregs, hcfg, fun hn => outputs_of_invalid (hcfg ▸ hv) (settled_iterate_of_pos hn s)⟩

/-! ### Safe lamps -/

/-- A row of a table of safe rows has safe lamps. -/
theorem rowSafe_of_tableSafe {c : Cfg} (h : tableSafe c = true) {k : Nat} (hk : k < c.nStates) :
    lampsSafe (mainField (romRow c k)) = true ∧
      walkExclusive (mainField (romRow c k)) (pedField (romRow c k)) = true := by
  simp only [tableSafe, List.all_eq_true, List.mem_range, Bool.and_eq_true] at h
  exact h k hk

theorem darkLamps_safe : lampsSafe 0 = true ∧ walkExclusive 0 0 = true := by decide

/-- A state that meets the invariant shows safe lamps: those of a safe row, or dark ones. -/
theorem safeLamps_of_inv {s : State} (h : Inv s) (hsafe : tableSafe s.cfg = true) : safeLamps s = true := by
  obtain ⟨_, hset, hcur, _⟩ := h
  obtain ⟨hmain, hped⟩ := settled_lamps hset
  rw [safeLamps, hmain, hped, mainMux_eq (.inl hcur), pedMux_eq (.inl hcur)]
  cases tableValid s.cfg with
  | true => simpa using rowSafe_of_tableSafe hsafe hcur
  | false => simpa using darkLamps_safe

/-- Settles O49: every run keeps the invariant and the build. -/
theorem lampsAreSafeAtEveryInstant : Obligations.LampsAreSafeAtEveryInstant := by
  intro s t n hinv hsafe hrun
  exact safeLamps_of_inv (inv_runFor hinv hrun) (runFor_cfg hrun ▸ hsafe)

end Sys2Proof.Machine
end

section
/-! PROOFS. When the input port is read (42_next_state_decoder.md): its low three bits alone (R100), and at ADVANCE
edges alone (R101), in one step and in every run. -/

namespace Sys2Proof.Machine

/-- A clock edge depends on the build, the schedule of later inputs and the count of edges, not on the pins of the edge
nor on the nodes, which it settles anew. -/
theorem clockEdge_congr {s s' : State} (hc : s'.cfg = s.cfg) (hv : s'.env = s.env) (he : s'.edges = s.edges)
    (r : Regs) : clockEdge r s' = clockEdge r s := by
  obtain ⟨_, c, _, v, e, _⟩ := s
  obtain ⟨_, c', _, v', e', _⟩ := s'
  obtain rfl : c' = c := hc
  obtain rfl : v' = v := hv
  obtain rfl : e' = e := he
  rfl

/-- When the coming edge is an ADVANCE edge. -/
theorem advances_iff (s : State) :
    advances s = true ↔ s.pins.rst = false ∧ tableValid s.cfg = true ∧ expire s.regs s.pins = true := by
  simp [advances, tableOk, and_assoc]

/-- At an edge that is no ADVANCE edge the successor has no effect. -/
theorem edgeRegs_of_not_advances {s : State} (h : advances s = false) (n m : StateId) :
    edgeRegs n s = edgeRegs m s := by
  obtain ⟨hr, he⟩ | ⟨hr, hv, he⟩ | ⟨hr, hv, hx, _⟩ | ⟨hr, hv, hx, ht, he⟩ | ⟨hr, hv, hx, ht, he⟩ :=
    edgeRegs_cases n s
  · rw [he, edgeRegs_of_rst hr] -- RESET
  · rw [he, edgeRegs_of_invalid hr hv] -- REFUSE
  · exact absurd ((advances_iff s).2 ⟨hr, hv, hx⟩) (Bool.eq_false_iff.1 h) -- ADVANCE
  · rw [he, edgeRegs_of_tick hr hv hx ht] -- COUNT
  · rw [he, edgeRegs_of_no_tick hr hv hx ht] -- IDLE

/-- A state with other levels on the input port. -/
def withInPort (x : Nat) (s : State) : State := { s with pins := { s.pins with inPort := x } }

/-- The port enters an edge through the successor alone. -/
theorem nextState_withInPort (x : Nat) (s : State) :
    nextState (withInPort x s) = clockEdge (edgeRegs (nxtNow (withInPort x s)) s) s := rfl

/-- At an edge that is no ADVANCE edge the levels on the port do not matter. -/
theorem nextState_withInPort_of_not_advances {s : State} (h : advances s = false) (x : Nat) :
    nextState (withInPort x s) = nextState s := by
  rw [nextState_withInPort, edgeRegs_of_not_advances h _ (nxtNow s), nextState]

/-- Settles O35: the edge reads the port for its successor alone, and uses that at ADVANCE alone. -/
theorem inputIsReadOnlyAtAdvance : Obligations.InputIsReadOnlyAtAdvance := by
  intro s x h
  calc step (withInPort x s) = .next (nextState (withInPort x s)) := step_eq_nextState _
    _ = .next (nextState s) := by rw [nextState_withInPort_of_not_advances h]
    _ = step s := (step_eq_nextState s).symm

/-- Levels that agree modulo 8 are sampled as the same code, and so give the same successor. -/
theorem nxtNow_withInPort_congr {s : State} (hw : Config.minInW ≤ s.cfg.inW) {x y : Nat} (h : x % 8 = y % 8) :
    nxtNow (withInPort x s) = nxtNow (withInPort y s) := by
  have hcode : sampleCode s.cfg { s.pins with inPort := x } = sampleCode s.cfg { s.pins with inPort := y } := by
    refine BitVec.eq_of_toNat_eq ?_
    rw [sampleCode_toNat hw, sampleCode_toNat hw]
    exact h
  exact congrArg (lookup s.cfg s.edges s.regs.cursor) hcode

/-- Settles O36: the two levels give the same successor, through which alone an edge reads them. -/
theorem upperPortBitsAreIgnored : Obligations.UpperPortBitsAreIgnored := by
  intro s x y hw h
  calc step (withInPort x s) = .next (nextState (withInPort x s)) := step_eq_nextState _
    _ = .next (nextState (withInPort y s)) := by
        rw [nextState_withInPort, nextState_withInPort, nxtNow_withInPort_congr hw h]
    _ = step (withInPort y s) := (step_eq_nextState _).symm

/-! ### Two runs whose inputs differ at one edge -/

/-- Two states with the same registers, build and count of edges: what can differ is their inputs and their nodes. -/
def sameEngine (s s' : State) : Prop := s'.regs = s.regs ∧ s'.cfg = s.cfg ∧ s'.edges = s.edges

/-- With the same pins and the same engine an edge leaves the same engine. -/
theorem sameEngine_nextState {s s' : State} (h : sameEngine s s') (hp : s'.pins = s.pins) :
    sameEngine (nextState s) (nextState s') := by
  obtain ⟨hr, hc, he⟩ := h
  exact ⟨edgeRegs_congr hr hc hp he, hc, congrArg (· + 1) he⟩

/-- While the schedule lasts, an edge moves the inputs on by one. -/
theorem inputs_nextState {s : State} (h : s.env ≠ []) : inputs (nextState s) = s.env := by
  obtain ⟨p, ps, he⟩ := List.exists_cons_of_ne_nil h
  simp [inputs, nextState, nextPins, he]

/-- Two states with the same engine, and inputs that differ in the port at a coming edge that is no ADVANCE edge, have
the same next state. -/
theorem nextState_congr_of_not_advances {s s' : State} {x : Nat} (h : sameEngine s s')
    (hin : inputs s' = { s.pins with inPort := x } :: s.env) (ha : advances s = false) :
    nextState s' = nextState s := by
  obtain ⟨hr, hc, he⟩ := h
  obtain ⟨hp, hv⟩ : s'.pins = { s.pins with inPort := x } ∧ s'.env = s.env := List.cons.inj hin
  calc nextState s' = clockEdge (edgeRegs (nxtNow (withInPort x s)) (withInPort x s)) s' :=
        congrArg (clockEdge · s') (edgeRegs_congr (s := withInPort x s) hr hc hp he)
    _ = nextState (withInPort x s) := clockEdge_congr hc hv he _
    _ = nextState s := nextState_withInPort_of_not_advances ha x

/-- The two runs agree after edge `j`, if it is no ADVANCE edge: before it the engines agree, edge by edge. -/
theorem iterate_congr_of_unsampled : ∀ (j : Nat) {s s' : State} {p : Pins} {x : Nat}, sameEngine s s' →
    (inputs s)[j]? = some p → inputs s' = (inputs s).set j { p with inPort := x } →
    advances (nextState^[j] s) = false → nextState^[j + 1] s' = nextState^[j + 1] s
  | 0, s, s', p, x, h, hp, hin, ha => by
    obtain rfl : s.pins = p := Option.some.inj hp
    exact nextState_congr_of_not_advances h hin ha
  | j + 1, s, s', p, x, h, hp, hin, ha => by
    have hp : s.env[j]? = some p := hp
    obtain ⟨hpins, henv⟩ : s'.pins = s.pins ∧ s'.env = s.env.set j { p with inPort := x } := List.cons.inj hin
    have hne : s.env ≠ [] := by rintro h0; simp [h0] at hp
    have hne' : s'.env ≠ [] := by rw [henv]; simpa using hne
    refine iterate_congr_of_unsampled j (sameEngine_nextState h hpins) (p := p) (x := x) ?_ ?_ ha
    · rw [inputs_nextState hne, hp]
    · rw [inputs_nextState hne, inputs_nextState hne', henv]

/-- Settles O37: the runs agree after edge `j`, and so ever after. -/
theorem unsampledInputNeverMatters : Obligations.UnsampledInputNeverMatters := by
  intro s s' u j n x p hp hin hr hc he hrun ha
  obtain rfl : nextState^[j] s = u := Host.Outcome.next.inj ((runFor_eq_iterate j s).symm.trans hrun)
  have hj : nextState^[j + 1] s' = nextState^[j + 1] s := iterate_congr_of_unsampled j ⟨hr, hc, he⟩ hp hin ha
  rw [runFor_eq_iterate, runFor_eq_iterate, Nat.add_comm, Function.iterate_add_apply, hj,
    ← Function.iterate_add_apply]

end Sys2Proof.Machine
end

section
/-! PROOFS. Level E refines level C (43_sequencer.md R117): inside an engine cycle the state stays and the counter takes
the ticks off its hold (41_hold_timer.md R91, R94), the last edge enters the successor (R92), and so do any number of
cycles, one after another. -/

namespace Sys2Proof.Machine

/-! ### Ticks and the hold counter -/

@[simp] theorem ticks_nil : ticks [] = 0 := rfl

@[simp] theorem ticks_cons (p : Pins) (ps : List Pins) : ticks (p :: ps) = p.tick.toNat + ticks ps := by
  cases h : p.tick <;> simp [ticks, h, Nat.add_comm]

theorem ticks_append (ps qs : List Pins) : ticks (ps ++ qs) = ticks ps + ticks qs := List.countP_append

theorem noReset_iff (ps : List Pins) : noReset ps = true ↔ ∀ p ∈ ps, p.rst = false := by
  simp [noReset]

@[simp] theorem noReset_cons (p : Pins) (ps : List Pins) :
    noReset (p :: ps) = true ↔ p.rst = false ∧ noReset ps = true := by
  simp [noReset]

/-- No more ticks in the first edges than in all of them. -/
theorem ticks_take_le (n : Nat) (ps : List Pins) : ticks (ps.take n) ≤ ticks ps :=
  (List.take_sublist n ps).countP_le

/-- The hold expires at an edge with as many ticks, one or none, as the counter has left (R92, R93). -/
theorem expire_iff_le_tick (r : Regs) (p : Pins) : expire r p = true ↔ r.holdCnt.toNat ≤ p.tick.toNat := by
  rw [expire_iff, ← BitVec.toNat_inj, ← BitVec.toNat_inj]
  cases p.tick
  · simp
  · simp
    omega

/-- An edge inside the hold keeps the cursor and takes its tick, one or none, off the counter: COUNT or IDLE. -/
theorem nextState_of_waiting {s : State} (hv : tableValid s.cfg = true) (hrst : s.pins.rst = false)
    (hwait : s.pins.tick.toNat < s.regs.holdCnt.toNat) :
    (nextState s).regs.cursor = s.regs.cursor ∧
      (nextState s).regs.holdCnt.toNat + s.pins.tick.toNat = s.regs.holdCnt.toNat := by
  have hx : expire s.regs s.pins = false := by
    rw [← Bool.not_eq_true, expire_iff_le_tick]
    omega
  rw [nextState_regs]
  cases ht : s.pins.tick with
  | true =>
    rw [ht] at hwait
    rw [edgeRegs_of_tick hrst hv hx ht]
    exact ⟨rfl, by simp at hwait ⊢; bv_omega⟩
  | false =>
    rw [edgeRegs_of_no_tick hrst hv hx ht]
    exact ⟨rfl, rfl⟩

/-- The edge at which the hold expires enters the successor of the row for the code sampled there, with its hold. -/
theorem justEntered_nextState_of_advances {s : State} (hcur : s.regs.cursor.toNat < s.cfg.nStates)
    (ha : advances s = true) : justEntered (nextState s) (delta s.cfg s.regs.cursor (sampleCode s.cfg s.pins)) := by
  obtain ⟨hrst, hv, hx⟩ := (advances_iff s).1 ha
  rw [justEntered, nextState_regs, nextState_cfg, edgeRegs_of_expire hrst hv hx,
    enter_of_lt (nxtNow_lt_of_valid hv hcur), nxtNow_of_lt hcur, codeNow]

/-! ### The schedule -/

/-- An edge moves the schedule on by one; where it ends the environment is free. -/
theorem env_prefix_inputs_nextState (s : State) : s.env <+: inputs (nextState s) := by
  cases h : s.env with
  | nil => exact List.nil_prefix
  | cons p ps => rw [inputs_nextState (by simp [h]), h]

/-- What a schedule that is about to be seen says of the coming edge and of those after it. -/
theorem cons_prefix_inputs {p : Pins} {ps : List Pins} {s : State} (h : p :: ps <+: inputs s) :
    s.pins = p ∧ ps <+: inputs (nextState s) := by
  obtain ⟨hp, hps⟩ := List.cons_prefix_cons.1 h
  exact ⟨hp.symm, hps.trans (env_prefix_inputs_nextState s)⟩

/-- After the first edges of a schedule the rest of it is to come. -/
theorem prefix_inputs_iterate : ∀ (ps : List Pins) {qs : List Pins} {s : State}, ps ++ qs <+: inputs s →
    qs <+: inputs (nextState^[ps.length] s)
  | [], _, _, h => h
  | _ :: ps, _, _, h => prefix_inputs_iterate ps (cons_prefix_inputs h).2

/-- Over edges with fewer ticks than the counter has left the cursor stays and the counter takes off the ticks. -/
theorem iterate_of_waiting : ∀ (ps : List Pins) {s : State}, tableValid s.cfg = true → ps <+: inputs s →
    noReset ps = true → ticks ps < s.regs.holdCnt.toNat →
    (nextState^[ps.length] s).regs.cursor = s.regs.cursor ∧
      (nextState^[ps.length] s).regs.holdCnt.toNat + ticks ps = s.regs.holdCnt.toNat
  | [], _, _, _, _, _ => ⟨rfl, rfl⟩
  | p :: ps, s, hv, hin, hrst, hlt => by
    obtain ⟨rfl, hin'⟩ := cons_prefix_inputs hin
    rw [noReset_cons] at hrst
    rw [ticks_cons] at hlt ⊢
    obtain ⟨hcur, hhold⟩ := nextState_of_waiting hv hrst.1 (by omega)
    obtain ⟨hcur', hhold'⟩ := iterate_of_waiting ps (s := nextState s) hv hin' hrst.2 (by omega)
    exact ⟨hcur'.trans hcur, by rw [List.length_cons, Function.iterate_succ_apply]; omega⟩

/-! ### One engine cycle -/

/-- The edges of an engine cycle: as many ticks as the hold, the last edge one of them, or one edge for a hold of zero;
no reset. -/
theorem isCycle_iff (hold : BitVec 8) (ws : List Pins) (last : Pins) :
    isCycle hold ws last = true ↔ noReset ws = true ∧ last.rst = false ∧
      ((hold = 0 ∧ ws = []) ∨ (hold ≠ 0 ∧ last.tick = true ∧ ticks ws + 1 = hold.toNat)) := by
  by_cases h : hold = 0#8 <;> simp [isCycle, h, and_assoc]

/-- A state that has just entered row `k` of a valid table and is about to see the edges of an engine cycle. -/
structure CycleStarts (s : State) (k : StateId) (ws : List Pins) (last : Pins) : Prop where
  valid : tableValid s.cfg = true
  row : k.toNat < s.cfg.nStates
  entered : justEntered s k
  cycle : isCycle (dwell s.cfg k) ws last = true
  ahead : ws ++ [last] <+: inputs s

namespace CycleStarts

variable {s : State} {k : StateId} {ws : List Pins} {last : Pins}

/-- After any number of the waiting edges the cursor is still `k` and the counter has taken off the ticks. -/
theorem waiting (h : CycleStarts s k ws last) (n : Nat) (hn : n ≤ ws.length) :
    (nextState^[n] s).regs.cursor = k ∧
      (nextState^[n] s).regs.holdCnt.toNat + ticks (ws.take n) = (dwell s.cfg k).toNat := by
  obtain ⟨hv, _, hentered, hcycle, hin⟩ := h
  have hregs : s.regs = ⟨k, dwell s.cfg k⟩ := hentered
  obtain ⟨hrst, _, ⟨_, rfl⟩ | ⟨_, _, hticks⟩⟩ := (isCycle_iff _ _ _).1 hcycle
  · obtain rfl : n = 0 := by simpa using hn
    simp [hregs]
  · have hlen : (ws.take n).length = n := List.length_take_of_le hn
    have hle := ticks_take_le n ws
    have hin' : ws.take n <+: inputs s :=
      ((List.take_prefix n ws).trans (List.prefix_append ws [last])).trans hin
    have hrst' : noReset (ws.take n) = true :=
      (noReset_iff _).2 fun p hp => (noReset_iff ws).1 hrst p (List.mem_of_mem_take hp)
    have hwait := iterate_of_waiting (ws.take n) hv hin' hrst' (by rw [hregs]; dsimp only; omega)
    rwa [hlen, hregs] at hwait

/-- After all the waiting edges the pins are those of the last edge. -/
theorem pins_last (h : CycleStarts s k ws last) : (nextState^[ws.length] s).pins = last :=
  (cons_prefix_inputs (prefix_inputs_iterate ws h.ahead)).1

/-- The last edge is an ADVANCE edge. -/
theorem advances_last (h : CycleStarts s k ws last) : advances (nextState^[ws.length] s) = true := by
  obtain ⟨_, hhold⟩ := h.waiting ws.length le_rfl
  rw [List.take_length] at hhold
  obtain ⟨_, hrst, hlast⟩ := (isCycle_iff _ _ _).1 h.cycle
  have hx : expire (nextState^[ws.length] s).regs last = true := by
    rw [expire_iff_le_tick]
    obtain ⟨hz, rfl⟩ | ⟨_, ht, hticks⟩ := hlast
    · rw [hz] at hhold
      simp at hhold ⊢
      omega
    · rw [ht, Bool.toNat_true]
      omega
  rw [advances_iff, h.pins_last, iterate_nextState_cfg]
  exact ⟨hrst, h.valid, hx⟩

/-- The waiting edges are no ADVANCE edges. -/
theorem not_advances_of_lt (h : CycleStarts s k ws last) {n : Nat} (hn : n < ws.length) :
    advances (nextState^[n] s) = false := by
  obtain ⟨_, hhold⟩ := h.waiting n hn.le
  have hpins : (nextState^[n] s).pins = ws[n] := by
    have hin : ws.take n ++ (ws.drop n ++ [last]) <+: inputs s := by
      rw [← List.append_assoc, List.take_append_drop]
      exact h.ahead
    have hin := prefix_inputs_iterate _ hin
    rw [List.length_take_of_le hn.le, List.drop_eq_getElem_cons hn] at hin
    exact (cons_prefix_inputs hin).1
  have hle := ticks_take_le (n + 1) ws
  rw [List.take_succ_eq_append_getElem hn, ticks_append, ticks_cons, ticks_nil] at hle
  have hx : expire (nextState^[n] s).regs ws[n] = false := by
    rw [← Bool.not_eq_true, expire_iff_le_tick]
    obtain ⟨_, _, ⟨_, rfl⟩ | ⟨_, _, hticks⟩⟩ := (isCycle_iff _ _ _).1 h.cycle
    · simp at hn
    · omega
  simp [advances, hpins, hx]

/-- The last edge alone is an ADVANCE edge. -/
theorem advances_iff_last (h : CycleStarts s k ws last) {n : Nat} (hn : n ≤ ws.length) :
    advances (nextState^[n] s) = true ↔ n = ws.length := by
  constructor
  · intro ha
    by_contra hne
    exact Bool.eq_false_iff.1 (h.not_advances_of_lt (by omega)) ha
  · rintro rfl
    exact h.advances_last

/-- The last edge leads to the successor for the code sampled there, just entered. -/
theorem justEntered_end (h : CycleStarts s k ws last) :
    justEntered (nextState^[ws.length + 1] s) (delta s.cfg k (sampleCode s.cfg last)) := by
  obtain ⟨hcur, _⟩ := h.waiting ws.length le_rfl
  have hlt : (nextState^[ws.length] s).regs.cursor.toNat < (nextState^[ws.length] s).cfg.nStates := by
    rw [hcur, iterate_nextState_cfg]
    exact h.row
  have hend := justEntered_nextState_of_advances hlt h.advances_last
  rwa [hcur, h.pins_last, iterate_nextState_cfg, ← Function.iterate_succ_apply' nextState] at hend

end CycleStarts

/-- Settles O56: inside the cycle by `waiting` and `advances_iff_last`; the nodes stay settled, so they show the row. -/
theorem stateIsShownForItsWholeHold : Obligations.StateIsShownForItsWholeHold := by
  intro s k ws last rest n hv hk hentered hset hcycle hin hn
  have h : CycleStarts s k ws last := ⟨hv, hk, hentered, hcycle, rest, by simp [hin]⟩
  obtain ⟨hcur, hhold⟩ := h.waiting n hn
  obtain ⟨hmain, hped⟩ := settled_lamps (settled_iterate n hset)
  rw [hcur, iterate_nextState_cfg, mainMux_eq (.inl hk), if_pos hv] at hmain
  rw [hcur, iterate_nextState_cfg, pedMux_eq (.inl hk), if_pos hv] at hped
  exact ⟨_, runFor_eq_iterate n s, hcur, Prod.ext hmain hped, hhold, h.advances_iff_last hn⟩

/-! ### Any number of cycles -/

/-- The edges of any number of cycles end in the state of level C, by induction on the list of cycles. -/
theorem justEntered_after_cycles : ∀ (cs : List (List Pins × Pins)) {s : State} {k : StateId},
    tableValid s.cfg = true → k.toNat < s.cfg.nStates → justEntered s k → areCycles s.cfg k cs = true →
    edgesOf cs <+: inputs s →
    justEntered (nextState^[(edgesOf cs).length] s) (afterSamples s.cfg k (samplesOf s.cfg cs))
  | [], _, _, _, _, h, _, _ => h
  | (ws, last) :: cs, s, k, hv, hk, hentered, hcycles, hin => by
    obtain ⟨hcycle, hrest⟩ := Bool.and_eq_true_iff.1 hcycles
    have hedges : edgesOf ((ws, last) :: cs) = (ws ++ [last]) ++ edgesOf cs := by simp [edgesOf]
    have hlen : (edgesOf ((ws, last) :: cs)).length = (edgesOf cs).length + (ws.length + 1) := by
      rw [hedges, List.length_append, List.length_append, List.length_singleton, Nat.add_comm]
    rw [hedges] at hin
    have h : CycleStarts s k ws last := ⟨hv, hk, hentered, hcycle, (List.prefix_append _ _).trans hin⟩
    have hin' : edgesOf cs <+: inputs (nextState^[ws.length + 1] s) := by
      simpa using prefix_inputs_iterate (ws ++ [last]) hin
    have ih := justEntered_after_cycles cs (s := nextState^[ws.length + 1] s)
      (k := delta s.cfg k (sampleCode s.cfg last))
    simp only [iterate_nextState_cfg] at ih
    rw [hlen, Function.iterate_add_apply]
    exact ih hv (delta_lt_of_valid hv hk _) h.justEntered_end hrest hin'

/-- Settles O55, by the induction of `justEntered_after_cycles`. -/
theorem edgesRefineCycles : Obligations.EdgesRefineCycles := by
  intro s k cs rest hv hk hentered hcycles hin
  exact ⟨_, runFor_eq_iterate _ s, iterate_nextState_cfg _ s,
    justEntered_after_cycles cs hv hk hentered hcycles ⟨rest, hin.symm⟩⟩

/-! ### Enough ticks -/

/-- Edges with at least `n + 1` ticks: the edge of the `n + 1`-th of them, and the edges before it. -/
theorem exists_split_at_tick : ∀ {ps : List Pins} {n : Nat}, n < ticks ps →
    ∃ ws last qs, ps = ws ++ last :: qs ∧ last.tick = true ∧ ticks ws = n
  | [], _, h => by simp at h
  | p :: ps, n, h => by
    rw [ticks_cons] at h
    by_cases hp : p.tick = true ∧ n = 0
    · exact ⟨[], p, ps, rfl, hp.1, hp.2.symm⟩
    · have hle : p.tick.toNat ≤ n := by
        cases ht : p.tick
        · simp
        · simp [ht] at hp ⊢
          omega
      obtain ⟨ws, last, qs, rfl, hlast, hws⟩ := exists_split_at_tick (ps := ps) (n := n - p.tick.toNat) (by omega)
      exact ⟨p :: ws, last, qs, rfl, hlast, by rw [ticks_cons]; omega⟩

/-- Reset-free edges with as many ticks as the hold asks for begin with an engine cycle. -/
theorem exists_cycle_of_ticks {hold : BitVec 8} {ps : List Pins} (hpos : hold ≠ 0) (hrst : noReset ps = true)
    (hticks : hold.toNat ≤ ticks ps) : ∃ ws last qs, ps = ws ++ last :: qs ∧ isCycle hold ws last = true := by
  have hnat : hold.toNat ≠ 0 := fun h => hpos (BitVec.eq_of_toNat_eq h)
  obtain ⟨ws, last, qs, rfl, htick, hws⟩ := exists_split_at_tick (ps := ps) (n := hold.toNat - 1) (by omega)
  rw [noReset_iff] at hrst
  refine ⟨ws, last, qs, rfl, (isCycle_iff _ _ _).2 ⟨?_, hrst last (by simp), .inr ⟨hpos, htick, by omega⟩⟩⟩
  exact (noReset_iff ws).2 fun p hp => hrst p (List.mem_append_left _ hp)

/-- Settles O57: the edges begin with an engine cycle, whose last edge leaves the state. -/
theorem enoughTicksLeaveTheState : Obligations.EnoughTicksLeaveTheState := by
  intro s k ps rest hv hk hentered hpos hrst hticks hin
  obtain ⟨ws, last, qs, rfl, hcycle⟩ := exists_cycle_of_ticks hpos hrst hticks
  have h : CycleStarts s k ws last := ⟨hv, hk, hentered, hcycle, qs ++ rest, by simp [hin]⟩
  obtain ⟨hcur, _⟩ := h.waiting ws.length le_rfl
  obtain ⟨_, _, ⟨hz, _⟩ | ⟨_, htick, hcount⟩⟩ := (isCycle_iff _ _ _).1 hcycle
  · exact absurd hz hpos
  · have htake : ticks ((ws ++ last :: qs).take (ws.length + 1)) = (dwell s.cfg k).toNat := by
      rw [← hcount, List.take_length_add_append]
      simp [ticks_append, htick]
    refine ⟨ws.length, _, _, by simp, runFor_eq_iterate _ s, hcur, h.advances_last, htake,
      runFor_eq_iterate _ s, ?_⟩
    rw [h.pins_last]
    exact h.justEntered_end

end Sys2Proof.Machine
end

section
/-! PROOFS. The sequenced operations (30_encoding.md R66): which of them an edge performs, and what each does to the
registers and the lamps (43_sequencer.md R112, R118; 45_table_validation.md R153; 41_hold_timer.md R91 to R95;
42_next_state_decoder.md R103). -/

namespace Sys2Proof.Machine

/-! ### Which operation an edge performs -/

/-- Settles O13: of the 32 control words each selects what its bits say. -/
theorem controlWordSelectsOneOperation : Obligations.ControlWordSelectsOneOperation := by
  unfold Obligations.ControlWordSelectsOneOperation
  decide

/-- The bits of the control word of an edge. -/
theorem ctlWord_bits (c : Cfg) (r : Regs) (p : Pins) :
    (ctlWord c r p).getLsbD 4 = p.rst ∧ (ctlWord c r p).getLsbD 3 = tableValid c ∧
    (ctlWord c r p).getLsbD 2 = holdZero r ∧ (ctlWord c r p).getLsbD 1 = holdOne r ∧
    (ctlWord c r p).getLsbD 0 = p.tick := by
  unfold ctlWord
  generalize p.rst = rst, tableValid c = ok, holdZero r = z, holdOne r = o, p.tick = t
  revert rst ok z o t
  decide

theorem holdZero_eq (r : Regs) : holdZero r = decide (r.holdCnt = 0) := beq_eq_decide _ _

theorem holdOne_eq (r : Regs) : holdOne r = decide (r.holdCnt = 1) := beq_eq_decide _ _

/-- Settles O14: the step is defined so, and the control word is put together from the five conditions. -/
theorem stepRunsTheControlWord : Obligations.StepRunsTheControlWord := by
  intro s
  rw [← holdZero_eq, ← holdOne_eq]
  exact ⟨rfl, ctlWord_bits s.cfg s.regs s.pins⟩

/-- A hold of two or more is neither zero nor one. -/
theorem two_le_holdCnt_iff (r : Regs) : 2 ≤ r.holdCnt.toNat ↔ r.holdCnt ≠ 0 ∧ r.holdCnt ≠ 1 := by
  rw [ne_eq, ne_eq, ← BitVec.toNat_inj, ← BitVec.toNat_inj]
  simp
  omega

/-- The operation an edge performs, by the conditions of the spec. -/
theorem decodeCtl_ctlNow_eq (s : State) :
    decodeCtl (ctlNow s) =
      if s.pins.rst = true then .reset
      else if tableValid s.cfg = false then .refuse
      else if s.regs.holdCnt = 0 then .advanceZ
      else if s.regs.holdCnt = 1 ∧ s.pins.tick = true then .advanceT
      else if s.pins.tick = true then .count
      else .idle := by
  simp [decodeCtl_ctlNow, holdZero_eq, holdOne_eq]

theorem selects_reset_iff (s : State) : decodeCtl (ctlNow s) = .reset ↔ s.pins.rst = true := by
  rw [decodeCtl_ctlNow_eq]
  split_ifs <;> simp [*]

theorem selects_refuse_iff (s : State) :
    decodeCtl (ctlNow s) = .refuse ↔ s.pins.rst = false ∧ tableValid s.cfg = false := by
  rw [decodeCtl_ctlNow_eq]
  split_ifs <;> simp_all

theorem selects_advanceZ_iff (s : State) :
    decodeCtl (ctlNow s) = .advanceZ ↔ s.pins.rst = false ∧ tableValid s.cfg = true ∧ s.regs.holdCnt = 0 := by
  rw [decodeCtl_ctlNow_eq]
  split_ifs <;> simp_all

theorem selects_advanceT_iff (s : State) :
    decodeCtl (ctlNow s) = .advanceT ↔
      s.pins.rst = false ∧ tableValid s.cfg = true ∧ s.regs.holdCnt = 1 ∧ s.pins.tick = true := by
  rw [decodeCtl_ctlNow_eq]
  split_ifs <;> simp_all

theorem selects_count_iff (s : State) :
    decodeCtl (ctlNow s) = .count ↔
      s.pins.rst = false ∧ tableValid s.cfg = true ∧ 2 ≤ s.regs.holdCnt.toNat ∧ s.pins.tick = true := by
  rw [decodeCtl_ctlNow_eq, two_le_holdCnt_iff]
  split_ifs <;> simp_all

theorem selects_idle_iff (s : State) :
    decodeCtl (ctlNow s) = .idle ↔
      s.pins.rst = false ∧ tableValid s.cfg = true ∧ s.regs.holdCnt ≠ 0 ∧ s.pins.tick = false := by
  rw [decodeCtl_ctlNow_eq]
  split_ifs <;> simp_all

/-- The step is exec of the operation the edge selects. -/
theorem step_of_selects {s : State} {i : Instr} (h : decodeCtl (ctlNow s) = i) : step s = exec i s := by
  rw [step, h]

/-! ### RESET and REFUSE -/

/-- The nodes after a clock edge are settled. -/
theorem settled_clockEdge (r : Regs) (s : State) : settled (clockEdge r s) := rfl

/-- After a clock edge an invalid table shows dark lamps (R83). -/
theorem lamps_clockEdge_of_invalid {s : State} (hv : tableValid s.cfg = false) (r : Regs) :
    (clockEdge r s).nodes.mainOut = 0 ∧ (clockEdge r s).nodes.pedOut = 0 :=
  invalidTableBlanksTheLamps (clockEdge r s) hv (settled_clockEdge r s)

/-- After a clock edge a valid table shows the lamps of the row that the new cursor names. -/
theorem lamps_clockEdge_of_valid {s : State} (hv : tableValid s.cfg = true) {r : Regs}
    (h : r.cursor.toNat < s.cfg.nStates) :
    (clockEdge r s).nodes.mainOut = mainField (romRow s.cfg r.cursor.toNat) ∧
      (clockEdge r s).nodes.pedOut = pedField (romRow s.cfg r.cursor.toNat) := by
  obtain ⟨hmain, hped, _⟩ := portsFollow_of_settled (settled_clockEdge r s) h
  exact ⟨hmain.trans (if_pos hv), hped.trans (if_pos hv)⟩

/-- Settles O2: RESET is the clock edge that enters the row of `INIT_STATE`, and an edge selects it exactly at `rst`. -/
theorem resetLoadsInitStateAndItsHold : Obligations.ResetLoadsInitStateAndItsHold := by
  intro s hrow
  refine ⟨⟨clockEdge (enter s Config.initState) s, rfl, enter_of_lt (initState_lt_of_row hrow),
    edgeFrame_clockEdge _ s, fun hv => lamps_clockEdge_of_invalid hv _⟩, selects_reset_iff s, fun hrst => ?_⟩
  exact step_of_selects ((selects_reset_iff s).2 hrst)

/-- Settles O3: REFUSE is the clock edge that keeps the registers. -/
theorem refuseFreezesTheRegisters : Obligations.RefuseFreezesTheRegisters := by
  intro s
  refine ⟨⟨clockEdge s.regs s, rfl, rfl, edgeFrame_clockEdge _ s, fun hv => lamps_clockEdge_of_invalid hv _⟩,
    selects_refuse_iff s, fun hrst hv => ?_⟩
  exact step_of_selects ((selects_refuse_iff s).2 ⟨hrst, hv⟩)

/-! ### COUNT and IDLE -/

/-- COUNT takes one from a hold of two or more, without wrapping (R91, R95). -/
theorem countDown_toNat {r : Regs} (h : 2 ≤ r.holdCnt.toNat) :
    (countDown r).holdCnt.toNat + 1 = r.holdCnt.toNat := by
  rw [countDown_holdCnt]
  bv_omega

/-- Settles O8: COUNT is the clock edge that counts down; it leaves the cursor, and so the lamps (R82). -/
theorem countTakesOneFromTheHold : Obligations.CountTakesOneFromTheHold := by
  intro s
  refine ⟨fun hhold => ?_, selects_count_iff s⟩
  have hone := countDown_toNat hhold
  refine ⟨clockEdge (countDown s.regs) s, rfl, rfl, hone, ?_, edgeFrame_clockEdge _ s, fun hlt hs => ?_⟩
  · rw [clockEdge_regs]
    omega
  · exact outputsDependOnTheCursorAlone _ s (settled_clockEdge _ s) hs rfl rfl hlt

/-- Settles O9: IDLE is the clock edge that keeps the registers. -/
theorem idleChangesNoRegister : Obligations.IdleChangesNoRegister := fun s =>
  ⟨⟨clockEdge s.regs s, rfl, rfl, edgeFrame_clockEdge _ s⟩, selects_idle_iff s⟩

/-- Settles O10: a COUNT edge has a hold of two or more, from which COUNT takes one. -/
theorem counterNeverWraps : Obligations.CounterNeverWraps := by
  intro s hsel
  obtain ⟨_, _, hhold, _⟩ := (selects_count_iff s).1 hsel
  have hone := countDown_toNat hhold
  have hmax : s.regs.holdCnt.toNat < 256 := s.regs.holdCnt.isLt
  refine ⟨hhold, clockEdge (countDown s.regs) s, step_of_selects hsel, ?_, ?_, ?_⟩ <;> rw [clockEdge_regs] <;> omega

/-! ### ADVANCE -/

/-- Settles O11: both ADVANCE operations are the clock edge that enters the successor, which a valid table keeps in the
table; the lamps are then those of its row. -/
theorem advanceLoadsTheSuccessorAndItsHold : Obligations.AdvanceLoadsTheSuccessorAndItsHold := by
  refine ⟨fun s hv hcur i hi => ?_, fun s => ⟨selects_advanceZ_iff s, selects_advanceT_iff s⟩⟩
  have hlt : (nxtNow s).toNat < s.cfg.nStates := nxtNow_lt_of_valid hv hcur
  have hexec : exec i s = .next (clockEdge (enter s (nxtNow s)) s) := by
    obtain rfl | rfl := hi <;> rfl
  obtain ⟨hmain, hped⟩ := lamps_clockEdge_of_valid (r := enter s (nxtNow s)) hv hlt
  have hhold : (enter s (nxtNow s)).holdCnt = holdField (romRow s.cfg (nxtNow s).toNat) :=
    congrArg holdField (tableRow_of_lt hlt)
  exact ⟨_, hexec, nxtNow_of_lt hcur, hhold, hlt, edgeFrame_clockEdge _ s, hmain, hped⟩

/-- Settles O12: at a hold of zero the coming edge is an ADVANCE edge, with or without a tick. -/
theorem zeroHoldIsLeftAtTheNextEdge : Obligations.ZeroHoldIsLeftAtTheNextEdge := by
  intro s hv hcur hrst hzero
  have hx : expire s.regs s.pins = true := (expire_iff _ _).2 (.inl hzero)
  exact ⟨_, step_eq_nextState s, justEntered_nextState_of_advances hcur ((advances_iff s).2 ⟨hrst, hv, hx⟩)⟩

/-! ### The tick-level step -/

/-- With a hold counter of at least one, the tick-level step is the step function of level E at a tick. -/
theorem edgeStep_of_tick {c : Cfg} {r : Regs} {p : Pins} (hv : tableValid c = true) (hpos : r.holdCnt ≠ 0)
    (hrst : p.rst = false) (ht : p.tick = true) : edgeStep c r p = tickStep c r p := by
  have hpos : ¬ r.holdCnt = 0#8 := hpos
  simp [edgeStep, tickStep, hrst, hv, hpos, ht]

/-- The tick-level step keeps the hold counter at least one, where every row holds at least one tick. -/
theorem tickStep_holdCnt_ne_zero {c : Cfg} {r : Regs} {p : Pins} (hv : tableValid c = true)
    (hcur : r.cursor.toNat < c.nStates) (hdwell : ∀ k : StateId, k.toNat < c.nStates → dwell c k ≠ 0) :
    (tickStep c r p).holdCnt ≠ 0 := by
  unfold tickStep
  split
  · exact hdwell _ (delta_lt_of_valid hv hcur _)
  · next hone => exact fun h => hone (by simpa using BitVec.sub_eq_iff_eq_add.1 h)

/-- Settles O17: the step is the step function of level E (R110); at a tick that is the tick-level step, and without one
a hold counter of at least one waits. -/
theorem stepIsTheTickLevelStep : Obligations.StepIsTheTickLevelStep := by
  intro s hv hcur hdwell hpos hrst
  refine ⟨_, step_eq_nextState s, ?_⟩
  rw [nextState_regs, edgeRegs_eq_edgeStep hcur]
  cases ht : s.pins.tick with
  | true =>
    rw [edgeStep_of_tick hv hpos hrst ht]
    exact ⟨tickStep_holdCnt_ne_zero hv hcur hdwell, fun _ => rfl, nofun⟩
  | false =>
    have hx : expire s.regs s.pins = false := (expire_eq_false_iff _ _).2 ⟨hpos, fun _ => ht⟩
    have hstay : edgeStep s.cfg s.regs s.pins = s.regs := by simp [edgeStep_eq, hrst, hv, hx, ht]
    rw [hstay]
    exact ⟨hpos, nofun, fun _ => rfl⟩

end Sys2Proof.Machine
end

section
/-! PROOFS. Encodings (30_encoding.md): decode and encode agree (R68), the words of the spec's examples, the byte order
of the ROM image (20_memory.md R44) and the pseudo-forms of `.fsm` texts (R71). -/

namespace Sys2Proof.Machine

/-! ### Rows: the instruction a row is read as -/

/-- The row instructions are those with fields. -/
theorem format_of_rowOf {i : Instr} {r : Row} (h : rowOf i = some r) : i.format = .row48 := by
  cases i <;> simp_all [rowOf, Instr.format]

/-- An instruction with the fields of a row is encoded in the bytes of the row's word. -/
theorem encode_of_rowOf {i : Instr} {r : Row} (h : rowOf i = some r) : encode i = rowBytes (rowWord r) := by
  rw [encode, h]

/-- The decoder of bytes reads the six bytes of a row word as the row decoder reads the word. -/
theorem decode_rowBytes (w : RowWord) : decode (rowBytes w) = .ok (decodeRow w) := by
  rw [rowBytes, decode, append_bytes]

/-- GoSouth's row, with legal entries, is read under its name: its lamps are no other row's (R140). -/
theorem namedRow_goSouthRow {a b c : StateId} (h : (gsLegal a && gsLegal b && gsLegal c) = true) :
    namedRow (goSouthRow a b c) = some (.goSouth a b c) := by
  simp [namedRow, goSouthRow, goWestRow, waitWestRow, h]

/-- GoPed's row, with legal entries, is read under its name: no row before it has its lamps. -/
theorem namedRow_goPedRow {a b c : StateId} (h : (gpLegal a && gpLegal b && gpLegal c) = true) :
    namedRow (goPedRow a b c) = some (.goPed a b c) := by
  simp [namedRow, goPedRow, goSouthRow, goWestRow, waitWestRow, waitSouthRow, h]

/-- A name that a row is read under has its `OPEN` entries at legal values. -/
theorem wf_of_namedRow {r : Row} {i : Instr} (h : namedRow r = some i) : i.wf = true := by
  unfold namedRow at h
  split_ifs at h with h0 h1 hgs h3 hgp <;> cases h
  · rfl
  · rfl
  · exact hgs.2 -- GoSouth
  · rfl
  · exact hgp.2 -- GoPed
  · rfl
  · rfl
  · rfl
  · rfl

/-- A well-formed row instruction is what its row's word is read as: ROW has no name, a name is found. -/
theorem decodeRow_rowWord {i : Instr} {r : Row} (hwf : i.wf = true) (h : rowOf i = some r) :
    decodeRow (rowWord r) = i := by
  rw [decodeRow, rowFields_rowWord]
  cases i <;> cases h
  case row =>
    rw [Option.isNone_iff_eq_none.1 hwf]
    rfl
  case goSouth =>
    rw [namedRow_goSouthRow hwf]
    rfl
  case goPed =>
    rw [namedRow_goPedRow hwf]
    rfl
  all_goals rfl

/-! ### Decode and encode -/

/-- The control instructions are read back from their match column (R66). -/
theorem decode_encode_of_ctl5 {i : Instr} (h : i.format = .ctl5) : decode (encode i) = .ok i := by
  cases i <;> cases h <;> rfl

/-- Settles O41: a row instruction is read back from its row's word, a control instruction from its match column. -/
theorem decodeOfEncode : Obligations.DecodeOfEncode := by
  intro i hwf hcomb
  cases hrow : rowOf i with
  | some r => rw [encode_of_rowOf hrow, decode_rowBytes, decodeRow_rowWord hwf hrow]
  | none =>
    refine decode_encode_of_ctl5 ?_
    cases i <;> simp_all [rowOf, Instr.format]

/-- Settles O42: a word is read as ROW where its fields have no name, and else under the name, with the fields of the
word in both cases. -/
theorem everyWordIsARow : Obligations.EveryWordIsARow := by
  intro w
  have hrow : rowOf (decodeRow w) = some (rowFields w) := rowOf_decodeRow w
  refine ⟨?_, format_of_rowOf hrow, by rw [encode_of_rowOf hrow, rowWord_rowFields], decode_rowBytes w⟩
  rw [decodeRow]
  cases hname : namedRow (rowFields w) with
  | none => exact Option.isNone_iff_eq_none.2 hname
  | some i => exact wf_of_namedRow hname

/-- Settles O43, by running the decoder on each list of bytes. -/
theorem knownWordsDecode : Obligations.KnownWordsDecode := by
  unfold Obligations.KnownWordsDecode
  decide

/-! ### The ROM image -/

/-- The six bytes of a row word, the least significant first. -/
theorem extractLsb'_readRow (m : Memory) (k : Nat) {i : Nat} (h : i < 6) :
    (m.readRow k).extractLsb' (8 * i) 8 = m.read (6 * k + i) := by
  refine BitVec.eq_of_getLsbD_eq fun j hj => ?_
  rw [BitVec.getLsbD_extractLsb', Memory.readRow]
  repeat rw [BitVec.getLsbD_append]
  -- bit `8 i + j` of the appended bytes is bit `j` of byte `i`
  interval_cases i <;> grind

/-- Byte `i` of row `k` in the image is byte `i` of the row's word. -/
theorem getElem?_image (m : Memory) {n k i : Nat} (hk : k < n) (hi : i < 6) :
    (m.image n)[6 * k + i]? = some ((m.readRow k).extractLsb' (8 * i) 8) := by
  have hlt : 6 * k + i < (m.image n).length := by rw [Memory.length_image]; omega
  rw [List.getElem?_eq_getElem hlt, Memory.getElem_image, extractLsb'_readRow m k hi]

/-- Bytes 2 to 5 of a row in the image: two successors each, the even one in the low nibble. -/
theorem getElem?_image_entries (c : Cfg) {k j : Nat} (hk : k < c.nStates) (hj : j < 4) :
    (c.rom.image c.nStates)[6 * k + (j + 2)]? = some (entry c k (2 * j + 1) ++ entry c k (2 * j)) := by
  have hstart : 8 * (j + 2) = 16 + 4 * (2 * j) := by omega
  rw [getElem?_image c.rom hk (by omega), entry, entry, nextField, nextField,
    BitVec.extractLsb'_append_extractLsb'_eq_extractLsb' (by omega), hstart, romRow]

/-- Settles O45: byte `i` of a row is bits `8 i` to `8 i + 7` of its word, one field or two neighbouring ones. -/
theorem romImageByteOrder : Obligations.RomImageByteOrder := by
  intro c k hk
  have hlamps : (romRow c k).extractLsb' 6 2 ++ (romRow c k).extractLsb' 0 6 = (romRow c k).extractLsb' 0 8 :=
    BitVec.extractLsb'_append_extractLsb'_eq_extractLsb' rfl
  refine ⟨Memory.length_image c.rom c.nStates, ?_, getElem?_image c.rom hk (by decide : 1 < 6),
    getElem?_image_entries c hk (by decide : 0 < 4), getElem?_image_entries c hk (by decide : 1 < 4),
    getElem?_image_entries c hk (by decide : 2 < 4), getElem?_image_entries c hk (by decide : 3 < 4)⟩
  rw [hlamps]
  exact getElem?_image c.rom hk (by decide : 0 < 6)

/-! ### The pseudo-forms of `.fsm` texts -/

/-- The four lamp letters and their values (R71). -/
theorem lamp_singleton_eq_some {a : Char} {x : Nat} (h : Fsm.lamp [a] = some x) :
    (a = 'R' ∧ x = 4) ∨ (a = 'Y' ∧ x = 2) ∨ (a = 'G' ∧ x = 1) ∨ (a = '-' ∧ x = 0) := by
  unfold Fsm.lamp at h
  split at h <;> simp_all

/-- A pair of lamp letters, east-west before north-south. -/
theorem mainValue_lamps {a b : Char} {x y : Nat} (ha : Fsm.lamp [a] = some x) (hb : Fsm.lamp [b] = some y) :
    Fsm.mainValue ['e', 'w', ':', a, ',', 'n', 's', ':', b] = some (8 * x + y) := by
  obtain ⟨rfl, rfl⟩ | ⟨rfl, rfl⟩ | ⟨rfl, rfl⟩ | ⟨rfl, rfl⟩ := lamp_singleton_eq_some ha <;>
    obtain ⟨rfl, rfl⟩ | ⟨rfl, rfl⟩ | ⟨rfl, rfl⟩ | ⟨rfl, rfl⟩ := lamp_singleton_eq_some hb <;> rfl

/-- Settles O46: the pairs of lamp letters, and the other forms by definition. -/
theorem fsmPseudoForms : Obligations.FsmPseudoForms :=
  ⟨fun _ _ _ _ ha hb => mainValue_lamps ha hb, fun _ => rfl, rfl, rfl, rfl, rfl, rfl, rfl, rfl, rfl⟩

end Sys2Proof.Machine
end

section
/-! PROOFS. VALIDATE and the status outputs (45_table_validation.md R150 to R152), and the combinational operations,
which are active at every instant (30_encoding.md R72). -/

namespace Sys2Proof.Machine

/-! ### The table and the cause of its fault -/

/-- Some entry of the table satisfies a condition. -/
theorem anyEntry_iff (c : Cfg) (p : Nat → Nat → Bool) :
    anyEntry c p = true ↔ ∃ k i : Nat, k < c.nStates ∧ i < 8 ∧ p k i = true := by
  simp only [anyEntry, List.any_eq_true, List.mem_range]
  exact ⟨fun ⟨k, hk, i, hi, h⟩ => ⟨k, i, hk, hi, h⟩, fun ⟨k, i, hk, hi, h⟩ => ⟨k, hk, i, hi, h⟩⟩

theorem missing_iff (c : Cfg) (k i : Nat) : missing c k i = true ↔ entry c k i = 0xF#4 := by
  rw [missing, beq_iff_eq]
  rfl

theorem dangling_iff (c : Cfg) (k i : Nat) :
    dangling c k i = true ↔ c.nStates ≤ (entry c k i).toNat ∧ entry c k i ≠ 0xF#4 := by
  rw [dangling, Bool.and_eq_true, decide_eq_true_eq, bne_iff_ne]
  rfl

/-- The cause bits: bit 0 some entry is missing, bit 1 some entry is dangling (R161). -/
theorem cfgCause_bits (c : Cfg) :
    (cfgCause c).getLsbD 0 = anyEntry c (missing c) ∧ (cfgCause c).getLsbD 1 = anyEntry c (dangling c) := by
  rw [cfgCause]
  cases anyEntry c (missing c) <;> cases anyEntry c (dangling c) <;> decide

/-- Settles O30: VALIDATE drives the three status nodes alone, each with its condition over every entry. -/
theorem validateJudgesEveryEntry : Obligations.ValidateJudgesEveryEntry := by
  intro s
  obtain ⟨hbit0, hbit1⟩ := cfgCause_bits s.cfg
  refine ⟨driveStatus s, rfl, tableValid_iff s.cfg, rfl, ?_, ?_, rfl⟩
  · rw [driveStatus_nodes, hbit0, anyEntry_iff]
    simp only [missing_iff]
    rfl
  · rw [driveStatus_nodes, hbit1, anyEntry_iff]
    simp only [dangling_iff]
    rfl

/-- An entry that is neither missing nor dangling names a row. -/
theorem entry_lt_of_not_missing_of_not_dangling {c : Cfg} {k i : Nat} (hm : missing c k i = false)
    (hd : dangling c k i = false) : (entry c k i).toNat < c.nStates := by
  rw [← Bool.not_eq_true, missing_iff] at hm
  rw [← Bool.not_eq_true, dangling_iff] at hd
  by_contra hge
  exact hd ⟨Nat.not_lt.1 hge, hm⟩

/-- A table of at most nine rows is valid exactly when no entry is missing and none is dangling (R150). -/
theorem tableValid_iff_no_fault {c : Cfg} (hn : c.nStates ≤ Config.maxStates) :
    tableValid c = true ↔
      ∀ k i : Nat, k < c.nStates → i < 8 → missing c k i = false ∧ dangling c k i = false := by
  rw [tableValid_iff]
  constructor
  · intro h k i hk hi
    exact ⟨missing_of_lt hn (h k i hk hi), dangling_of_lt (h k i hk hi)⟩
  · intro h k i hk hi
    obtain ⟨hm, hd⟩ := h k i hk hi
    exact entry_lt_of_not_missing_of_not_dangling hm hd

/-- Settles O32: the cause of a valid table is 0 (`cfgCause_of_valid`), and a cause of 0 leaves no entry missing or
dangling. -/
theorem causeIsZeroExactlyWithoutFault : Obligations.CauseIsZeroExactlyWithoutFault := by
  intro c hn
  have hvalid := tableValid_iff_no_fault hn
  refine ⟨hvalid, fun hzero => ?_, fun hfault => cfgCause_of_valid hn (by simpa [cfgFault] using hfault)⟩
  obtain ⟨hbit0, hbit1⟩ := cfgCause_bits c
  rw [hzero] at hbit0 hbit1
  have hmissing := (anyEntry_eq_false_iff c _).1 hbit0.symm
  have hdangling := (anyEntry_eq_false_iff c _).1 hbit1.symm
  have hv : tableValid c = true := hvalid.2 fun k i hk hi => ⟨hmissing k i hk hi, hdangling k i hk hi⟩
  simp [cfgFault, hv]

/-! ### Active at every instant -/

/-- Settles O31: each of the five operations drives nodes with the values they carry in a settled state, and a clock
edge settles the nodes. -/
theorem combinationalOperationsAreAlwaysActive : Obligations.CombinationalOperationsAreAlwaysActive := by
  refine ⟨fun i s hi hs => ?_, fun s t hstep => eq_nextState_of_step hstep ▸ settled_nextState s⟩
  obtain ⟨r, c, p, v, e, n⟩ := s
  obtain rfl : n = nodesOf c r p e := hs
  cases i <;> cases hi <;> rfl

end Sys2Proof.Machine
end

section
/-! PROOFS. Rows as instructions (44_state_table.md R131 to R140): a row is executed one clock edge at a time
(43_sequencer.md R110, R114) and enters the successor it lists when its hold expires. -/

namespace Sys2Proof.Machine

/-- Settles O15: the step is one edge of the row at the cursor, whose six bytes decode to an instruction with the fields
of that row. -/
theorem stepRunsTheRowAtTheCursor : Obligations.StepRunsTheRowAtTheCursor := by
  have hrow : ∀ s : State, step s = exec (decodeRow (tableRow s s.regs.cursor)) s := fun s => by
    rw [exec_of_rowOf (rowOf_decodeRow _), rowEdge_tableRow, step_eq]
  refine ⟨fun s i hcur hdec => ?_, hrow⟩
  have hi : decodeRow (romRow s.cfg s.regs.cursor.toNat) = i := Except.ok.inj hdec
  rw [hrow s, tableRow_of_lt hcur, hi]

/-- Settles O19: a row instruction is one clock edge, with the registers of R110 and the row's successors. -/
theorem everyRowRunsOneEdge : Obligations.EveryRowRunsOneEdge := by
  intro i r s hrow
  refine ⟨_, exec_of_rowOf hrow s, edgeFrame_clockEdge _ s, ?_, ?_, ?_, ?_, ?_⟩ <;> rw [rowEdge, clockEdge_regs]
  · exact fun hrst => edgeRegs_of_rst hrst _
  · exact fun hrst hv => edgeRegs_of_invalid hrst hv _
  · exact fun hrst hv hx => edgeRegs_of_expire hrst hv hx _
  · exact fun hrst hv hx ht => edgeRegs_of_tick hrst hv hx ht _
  · exact fun hrst hv hx ht => edgeRegs_of_no_tick hrst hv hx ht _

/-- At the edge at which the hold expires a row instruction enters the successor it lists, if that names a row, and the
lamps are then those of the row entered. -/
theorem row_enters_successor {i : Instr} {r : Row} (hrow : rowOf i = some r) {s : State} {k : StateId}
    (ha : advances s = true) (hk : successor r.next (sampleCode s.cfg s.pins) = k) (hlt : k.toNat < s.cfg.nStates) :
    ∃ t, exec i s = .next t ∧ edgeFrame s t ∧ justEntered t k ∧
      (t.nodes.mainOut, t.nodes.pedOut) = lambda s.cfg t.regs.cursor := by
  obtain ⟨hrst, hv, hx⟩ := (advances_iff s).1 ha
  subst hk
  have hregs : edgeRegs (successor r.next (codeNow s)) s = ⟨_, dwell s.cfg _⟩ :=
    (edgeRegs_of_expire hrst hv hx _).trans (enter_of_lt hlt)
  refine ⟨_, exec_of_rowOf hrow s, edgeFrame_clockEdge _ s, hregs, ?_⟩
  rw [rowEdge, hregs]
  obtain ⟨hmain, hped⟩ := lamps_clockEdge_of_valid hv (r := ⟨_, dwell s.cfg _⟩) hlt
  exact Prod.ext hmain hped

/-- Settles O20: ROW has the fields written in it. -/
theorem rowEntersItsSuccessor : Obligations.RowEntersItsSuccessor := by
  intro r s hrst hv hx hlt
  have ha : advances s = true := (advances_iff s).2 ⟨hrst, hv, hx⟩
  obtain ⟨t, hexec, hframe, hentered, hlamps⟩ := row_enters_successor (i := .row r) rfl ha rfl hlt
  exact ⟨t, hexec, hentered, hframe, hlamps⟩

/-! ### The rows of the reference table -/

/-- A row of the reference table in a valid table of nine rows enters the successor it lists. -/
theorem refRow_enters {i : Instr} {r : Row} (hrow : rowOf i = some r) {s : State} {k : StateId}
    (hn : s.cfg.nStates = 9) (ha : advances s = true) (hk : successor r.next (sampleCode s.cfg s.pins) = k)
    (hlt : k.toNat < 9) : ∃ t, exec i s = .next t ∧ edgeFrame s t ∧ justEntered t k := by
  obtain ⟨t, hexec, hframe, hentered, _⟩ := row_enters_successor hrow ha hk (hn ▸ hlt)
  exact ⟨t, hexec, hframe, hentered⟩

/-- The eight codes. -/
theorem code_cases : ∀ c : Code, c = 0 ∨ c = 1 ∨ c = 2 ∨ c = 3 ∨ c = 4 ∨ c = 5 ∨ c = 6 ∨ c = 7 := by decide

/-- Where GoWest goes (R131). -/
theorem successor_goWestRow : ∀ c : Code, successor goWestRow.next c = if c.toNat ≤ 1 then 0 else 1 := by decide

/-- Where GoSouth goes (R133). -/
theorem successor_goSouthRow (gs5 gs6 gs7 : StateId) (c : Code) :
    successor (goSouthRow gs5 gs6 gs7).next c =
      if c = 0 ∨ c = 2 then 2 else if c = 5 then gs5 else if c = 6 then gs6 else if c = 7 then gs7 else 3 := by
  obtain rfl | rfl | rfl | rfl | rfl | rfl | rfl | rfl := code_cases c <;> rfl

/-- Where GoPed goes (R135). -/
theorem successor_goPedRow (gp5 gp6 gp7 : StateId) (c : Code) :
    successor (goPedRow gp5 gp6 gp7).next c =
      if c = 0 ∨ c = 4 then 4 else if c = 5 then gp5 else if c = 6 then gp6 else if c = 7 then gp7 else 5 := by
  obtain rfl | rfl | rfl | rfl | rfl | rfl | rfl | rfl := code_cases c <;> rfl

/-- The legal entries of GoSouth name rows of the reference table (R140). -/
theorem lt_nine_of_gsLegal : ∀ {n : StateId}, gsLegal n = true → n.toNat < 9 := by decide

/-- The legal entries of GoPed name rows of the reference table (R140). -/
theorem lt_nine_of_gpLegal : ∀ {n : StateId}, gpLegal n = true → n.toNat < 9 := by decide

/-- Settles O21: the row's word, and its successors for codes 0 and 1 and for the others. -/
theorem goWestFollowsItsRow : Obligations.GoWestFollowsItsRow := by
  refine ⟨rfl, rfl, rfl, rfl, rfl, fun s hn hrst hv hx => ?_⟩
  refine refRow_enters rfl hn ((advances_iff s).2 ⟨hrst, hv, hx⟩) (successor_goWestRow _) ?_
  split <;> decide

/-- Settles O22: the rows' words, and their one successor each. -/
theorem waitRowsAlwaysGoOn : Obligations.WaitRowsAlwaysGoOn := by
  refine ⟨rfl, rfl, rfl, rfl, rfl, rfl, rfl, rfl, rfl, rfl, fun s hn hrst hv hx => ?_⟩
  have ha : advances s = true := (advances_iff s).2 ⟨hrst, hv, hx⟩
  exact ⟨refRow_enters rfl hn ha (successor_all 2 _) (by decide),
    refRow_enters rfl hn ha (successor_all 4 _) (by decide)⟩

/-- Settles O23: the row's word, and its successor for each code, which the legal entries keep in the table. -/
theorem goSouthFollowsItsRow : Obligations.GoSouthFollowsItsRow := by
  refine ⟨rfl, rfl, fun gs5 gs6 gs7 => ⟨⟨_, rfl⟩, fun s hn hrst hv hx h5 h6 h7 => ?_⟩⟩
  refine refRow_enters rfl hn ((advances_iff s).2 ⟨hrst, hv, hx⟩) (successor_goSouthRow gs5 gs6 gs7 _) ?_
  split_ifs
  · decide
  · exact lt_nine_of_gsLegal h5
  · exact lt_nine_of_gsLegal h6
  · exact lt_nine_of_gsLegal h7
  · decide

/-- Settles O24: the row's word, and its successor for each code, which the legal entries keep in the table. -/
theorem goPedFollowsItsRow : Obligations.GoPedFollowsItsRow := by
  refine ⟨rfl, rfl, fun gp5 gp6 gp7 => ⟨⟨_, rfl⟩, fun s hn hrst hv hx h5 h6 h7 => ?_⟩⟩
  refine refRow_enters rfl hn ((advances_iff s).2 ⟨hrst, hv, hx⟩) (successor_goPedRow gp5 gp6 gp7 _) ?_
  split_ifs
  · decide
  · exact lt_nine_of_gpLegal h5
  · exact lt_nine_of_gpLegal h6
  · exact lt_nine_of_gpLegal h7
  · decide

/-- Settles O25: the rows' words, and their one successor each. -/
theorem flashRowsAreAFixedChain : Obligations.FlashRowsAreAFixedChain := by
  refine ⟨rfl, rfl, rfl, rfl, rfl, rfl, rfl, rfl, ⟨_, rfl⟩, ⟨_, rfl⟩, ⟨_, rfl⟩, ⟨_, rfl⟩,
    fun s hn hrst hv hx => ?_⟩
  have ha : advances s = true := (advances_iff s).2 ⟨hrst, hv, hx⟩
  exact ⟨refRow_enters rfl hn ha (successor_all 6 _) (by decide),
    refRow_enters rfl hn ha (successor_all 7 _) (by decide),
    refRow_enters rfl hn ha (successor_all 8 _) (by decide),
    refRow_enters rfl hn ha (successor_all 0 _) (by decide)⟩

/-- Settles O54: GoWest stays without demand, and goes on to WaitWest and GoSouth, which stays with code 2. -/
theorem scenarioVisitsSixStates : Obligations.ScenarioVisitsSixStates := by
  intro o
  have h00 : delta (refCfg o) 0 0 = 0 := delta_refCfg_go_zero o (by decide)
  have h02 : delta (refCfg o) 0 2 = 1 := delta_refCfg o (by decide) 2
  have h12 : delta (refCfg o) 1 2 = 2 := delta_refCfg_of_between o (by decide) 2
  have h22 : delta (refCfg o) 2 2 = 2 := delta_refCfg o (by decide) 2
  simp only [visited, h00, h02, h12, h22]

end Sys2Proof.Machine
end
